-- ==== Sys2Proof/Word.lean ====
section
/-! DEFINITION. Word: the two widths of the engine, a byte and a 32-bit word (spec/00_scope.md R8, R10). Every value of
the engine is unsigned (R10). -/

namespace Sys2Proof

/-- A byte is 8 bits (R10). -/
abbrev Byte := BitVec 8

/-- A word is 32 bits (R10): every register of the window is one word wide (R34). -/
abbrev Word := BitVec 32

end Sys2Proof
end

