-- ==== Sys2Proof/Syntax.lean ====
section
/-! DEFINITION. Syntax: the host actions of the MDE, one constructor per row of spec/opcode_table.json
(spec/30_encoding.md R70, R80). A write carries the 32-bit value it writes (R71); a read and a command carry nothing: an
ABSORB takes its bytes from the register DATA (R75). -/

namespace Sys2Proof

/-- One row of the opcode table (R80). The first twenty-one are BUS accesses, the last seven CMD words, which a host
performs by writing them to `CMD` (R70, R100). -/
inductive Instr where
  | wrCmd (v : Word)
  | wrData (v : Word)
  | rdData
  | rdStatus
  | rdLenlo
  | rdLenhi
  | rdH0
  | rdH1
  | rdH2
  | rdH3
  | rdH4
  | rdDout0
  | rdDout1
  | rdDout2
  | rdDout3
  | rdDout4
  | wrDout0 (v : Word)
  | wrDout1 (v : Word)
  | wrDout2 (v : Word)
  | wrDout3 (v : Word)
  | wrDout4 (v : Word)
  | reset
  | absorb0
  | absorb1
  | absorb2
  | absorb3
  | absorb4
  | finalize
  deriving DecidableEq, Repr

end Sys2Proof
end

