-- ==== Sys2Proof/WellFormed.lean ====
section
/-! DEFINITION. WellFormed: the checks that an instruction is one the spec admits. The only operand with reserved values is
the word of a write to `CMD` (spec/30_encoding.md R72, R74, R76). -/

namespace Sys2Proof

/-- The seven admitted CMD words (R74: "exactly seven CMD words are admitted"): RSV is 0, and OP and NB are those of
RESET, of an ABSORB of at most four bytes, or of FINALIZE. -/
def cmdWordAdmitted (v : Word) : Bool :=
  v.toNat / 128 = 0 &&
    ((v.toNat % 16 = 1 && v.toNat / 16 % 8 = 0) ||
     (v.toNat % 16 = 2 && v.toNat / 16 % 8 ≤ 4) ||
     (v.toNat % 16 = 3 && v.toNat / 16 % 8 = 0))

/-- An instruction is well formed when the spec admits its operand: a write to `CMD` carries an admitted word, and every
other row admits every value of its operand (R101, R116..R120). -/
def Instr.wellFormed : Instr → Bool
  | .wrCmd v => cmdWordAdmitted v
  | .wrData _ | .rdData | .rdStatus | .rdLenlo | .rdLenhi
  | .rdH0 | .rdH1 | .rdH2 | .rdH3 | .rdH4
  | .rdDout0 | .rdDout1 | .rdDout2 | .rdDout3 | .rdDout4
  | .wrDout0 _ | .wrDout1 _ | .wrDout2 _ | .wrDout3 _ | .wrDout4 _
  | .reset | .absorb0 | .absorb1 | .absorb2 | .absorb3 | .absorb4 | .finalize => true

end Sys2Proof
end

