-- ==== Sys2Proof/Decode.lean ====
section
/-! DEFINITION. Decode: what a host access spells (spec/40_host_access.md R123), what a CMD word spells
(spec/30_encoding.md R74), and the encoder back, written from the same tables (R71, R72, R80). Both decoders are total and
refuse by name. A write to `CMD` decodes in two levels, as R70 and R100 say: the access is `WR.CMD`, and the word it
carries is decoded when it is performed. -/

namespace Sys2Proof

/-- `DIR` of a host access (R71). -/
inductive Dir where
  | read
  | write
  deriving DecidableEq, Repr

/-- A host access to the register window: `DIR`, the 8-bit byte offset `OFF`, the width `SIZE` in bytes (R71), and the value
a write carries (a read's value is not looked at). -/
structure Access where
  dir  : Dir
  off  : BitVec 8
  size : Nat
  val  : Word
  deriving DecidableEq, Repr

/-- Why a decoder refuses: the reasons of R172 that decoding can give. -/
inductive Reject where
  /-- An access of other than 32 bits (R54). -/
  | accessWidth
  /-- A 32-bit access at an offset that is no multiple of 4 (R54). -/
  | misaligned
  /-- An access at 0x3C..0xFC (R122). -/
  | reservedOffset
  /-- A read of `CMD` (R121). -/
  | readOfWriteOnly
  /-- A write of a read-only view (R121). -/
  | writeOfReadOnly
  /-- A CMD word with RSV nonzero, a reserved OP, or RESET or FINALIZE with NB nonzero (R74). -/
  | reservedCmd
  /-- ABSORB with NB in 5..7 (R74). -/
  | reservedNb
  deriving DecidableEq, Repr

/-- What an admitted CMD word spells (R73, R74). -/
inductive Cmd where
  | reset
  | absorb0
  | absorb1
  | absorb2
  | absorb3
  | absorb4
  | finalize
  deriving DecidableEq, Repr

/-- The command's row of the opcode table. -/
def Cmd.instr : Cmd → Instr
  | .reset    => .reset
  | .absorb0  => .absorb0
  | .absorb1  => .absorb1
  | .absorb2  => .absorb2
  | .absorb3  => .absorb3
  | .absorb4  => .absorb4
  | .finalize => .finalize

/-! ### CMD words (R72, R74) -/

/-- `OP`, bits 3:0 (R72). -/
def cmdOp (v : Word) : Nat := v.toNat % 2 ^ 4

/-- `NB`, bits 6:4 (R72). -/
def cmdNb (v : Word) : Nat := v.toNat / 2 ^ 4 % 2 ^ 3

/-- `RSV`, bits 31:7 (R72). -/
def cmdRsv (v : Word) : Nat := v.toNat / 2 ^ 7

/-- `ABSORB(nb)` for `nb` in 0..4; the other counts of the 3-bit field are reserved (R74). The parameter `DATA_BYTES_MAX` is
tested when the command is performed (Machine/Commands.lean, absorb). -/
def decodeAbsorb : Nat → Except Reject Cmd
  | 0 => .ok .absorb0
  | 1 => .ok .absorb1
  | 2 => .ok .absorb2
  | 3 => .ok .absorb3
  | 4 => .ok .absorb4
  | _ => .error .reservedNb

/-- R74's `decode`, in its order of tests. -/
def decodeCmd (v : Word) : Except Reject Cmd :=
  if cmdRsv v ≠ 0 then .error .reservedCmd
  else if cmdOp v = 1 ∧ cmdNb v = 0 then .ok .reset
  else if cmdOp v = 2 then decodeAbsorb (cmdNb v)
  else if cmdOp v = 3 ∧ cmdNb v = 0 then .ok .finalize
  else .error .reservedCmd

/-! ### Host accesses (R71, R80, R123) -/

/-- The readable registers of the window (R34): the row that reads the register at a byte offset. -/
def readRow : Nat → Option Instr
  | 0x04 => some .rdData
  | 0x08 => some .rdStatus
  | 0x0C => some .rdLenlo
  | 0x10 => some .rdLenhi
  | 0x14 => some .rdH0
  | 0x18 => some .rdH1
  | 0x1C => some .rdH2
  | 0x20 => some .rdH3
  | 0x24 => some .rdH4
  | 0x28 => some .rdDout0
  | 0x2C => some .rdDout1
  | 0x30 => some .rdDout2
  | 0x34 => some .rdDout3
  | 0x38 => some .rdDout4
  | _    => none

/-- The writable registers of the window (R34): the row that writes `v` at a byte offset. -/
def writeRow (v : Word) : Nat → Option Instr
  | 0x00 => some (.wrCmd v)
  | 0x04 => some (.wrData v)
  | 0x28 => some (.wrDout0 v)
  | 0x2C => some (.wrDout1 v)
  | 0x30 => some (.wrDout2 v)
  | 0x34 => some (.wrDout3 v)
  | 0x38 => some (.wrDout4 v)
  | _    => none

/-- The row of R80 an access stands for, by direction and offset alone. -/
def accessRow (a : Access) : Option Instr :=
  match a.dir with
  | .read  => readRow a.off.toNat
  | .write => writeRow a.val a.off.toNat

/-- Checks 1 to 5 of R123, in their order: the first that fails names the refusal. -/
def checkAccess (a : Access) : Option Reject :=
  if a.size ≠ 4 then some .accessWidth
  else if a.off.toNat % 4 ≠ 0 then some .misaligned
  else if 0x3C ≤ a.off.toNat then some .reservedOffset
  else if a.dir = .read ∧ a.off.toNat = 0x00 then some .readOfWriteOnly
  else if a.dir = .write ∧ 0x08 ≤ a.off.toNat ∧ a.off.toNat ≤ 0x24 then some .writeOfReadOnly
  else none

/-- The access a host makes, decoded: the checks of R123, then the row. Every access that passes the checks has a row
(Laws/Decode.lean, accessRow_of_checkAccess), so the last arm is never taken; it refuses by the name of an offset
that holds no register. -/
def decodeAccess (a : Access) : Except Reject Instr :=
  match checkAccess a with
  | some r => .error r
  | none =>
    match accessRow a with
    | some i => .ok i
    | none   => .error .reservedOffset

/-! ### The opcode table's numbering

A BUS row has the 9-bit pattern `DIR ‖ OFF` (R71), which fills two bytes; the value of a write follows it, in bits 47..16.
A CMD row is the 32-bit word (R72). The two formats share no bit that tells them apart: R70 tells them apart by where they
stand (an access, or the word a write to `CMD` carries), and the table by their number of bits (32 for a CMD row). -/

/-- The access whose 9-bit pattern is in bits 8..0 of `w` and whose value is in bits 47..16. -/
def busAccess (w : Nat) : Access :=
  { dir := if w.testBit 8 then .write else .read
    off := BitVec.ofNat 8 w
    size := 4
    val := BitVec.ofNat 32 (w / 2 ^ 16) }

/-- The access that carries the CMD word `w`: a write of offset 0x00 (R70, R100). -/
def cmdAccess (w : Nat) : Access :=
  { dir := .write, off := 0, size := 4, val := BitVec.ofNat 32 w }

/-- The access a host makes for the `nbits`-bit table word `w`. -/
def tableAccess (nbits w : Nat) : Access :=
  if nbits = 32 then cmdAccess w else busAccess w

/-- The row a CMD word of 32 bits spells. -/
def decodeCmdRow (w : Nat) : Option Instr :=
  if w < 2 ^ 32 then
    match decodeCmd (BitVec.ofNat 32 w) with
    | .ok c    => some c.instr
    | .error _ => none
  else none

/-- The row a BUS pattern spells; bits 15..9 are no part of a pattern, and a read carries no value. -/
def decodeBusRow (w : Nat) : Option Instr :=
  if w / 2 ^ 9 % 2 ^ 7 ≠ 0 ∨ 2 ^ 48 ≤ w then none
  else
    match decodeAccess (busAccess w) with
    | .ok i    => some i
    | .error _ => none

/-- The instruction read from the `nbits` bits `w`, numbered as spec/opcode_table.json numbers them. -/
def decodeTableWord (nbits w : Nat) : Option Instr :=
  if nbits = 32 then decodeCmdRow w else decodeBusRow w

/-! ### The encoder (R80) -/

/-- Bits of an instruction, and their number: what a host puts on the bus (BUS) or into `CMD` (CMD). -/
structure Bits where
  nbits : Nat
  word  : Nat
  deriving DecidableEq, Repr

/-- A BUS read: its pattern in two bytes. -/
def encodeRead (off : Nat) : Bits := ⟨16, off⟩

/-- A BUS write: its pattern in two bytes, then its value. -/
def encodeWrite (off : Nat) (v : Word) : Bits := ⟨48, 0x100 + off + v.toNat * 2 ^ 16⟩

/-- A CMD word from its fields `OP` and `NB` (R72, R78). -/
def encodeCmd (op nb : Nat) : Bits := ⟨32, op + nb * 2 ^ 4⟩

/-- R80's table, read the other way. -/
def encode : Instr → Bits
  | .wrCmd v   => encodeWrite 0x00 v
  | .wrData v  => encodeWrite 0x04 v
  | .rdData    => encodeRead 0x04
  | .rdStatus  => encodeRead 0x08
  | .rdLenlo   => encodeRead 0x0C
  | .rdLenhi   => encodeRead 0x10
  | .rdH0      => encodeRead 0x14
  | .rdH1      => encodeRead 0x18
  | .rdH2      => encodeRead 0x1C
  | .rdH3      => encodeRead 0x20
  | .rdH4      => encodeRead 0x24
  | .rdDout0   => encodeRead 0x28
  | .rdDout1   => encodeRead 0x2C
  | .rdDout2   => encodeRead 0x30
  | .rdDout3   => encodeRead 0x34
  | .rdDout4   => encodeRead 0x38
  | .wrDout0 v => encodeWrite 0x28 v
  | .wrDout1 v => encodeWrite 0x2C v
  | .wrDout2 v => encodeWrite 0x30 v
  | .wrDout3 v => encodeWrite 0x34 v
  | .wrDout4 v => encodeWrite 0x38 v
  | .reset     => encodeCmd 1 0
  | .absorb0   => encodeCmd 2 0
  | .absorb1   => encodeCmd 2 1
  | .absorb2   => encodeCmd 2 2
  | .absorb3   => encodeCmd 2 3
  | .absorb4   => encodeCmd 2 4
  | .finalize  => encodeCmd 3 0

/-- The host access that performs an instruction: a BUS row's own access; for a CMD row the write of its word to `CMD`
(R100). -/
def Instr.access (i : Instr) : Access := tableAccess (encode i).nbits (encode i).word

end Sys2Proof
end

