-- ==== Sys2Proof/Config.lean ====
section
/-! DEFINITION. Config: the shape of the parameters the spec leaves open (spec/00_scope.md R9). The model takes them as
data (State.cfg), so a statement about every state is a statement about every choice of parameters; their default values
and their legal range stand in Sys2Proof/Machine/Params.lean. -/

namespace Sys2Proof

/-- `ROT`, the six rotation amounts of a round (R9, R151), in the order R9 lists them. Legal amounts are 0..31. -/
structure Rot where
  rIn  : Nat
  rTop : Nat
  rB   : Nat
  rC   : Nat
  rD   : Nat
  rE   : Nat
  deriving DecidableEq, Repr

/-- The open parameters of one instance (R9): `IV`, `ROT`, `KROUND`, `PAD_LIMIT`, `DATA_BYTES_MAX`. The two others of R9,
`N_ENGINES` and `REG_WINDOW`, belong to a system of instances (Machine/System.lean). -/
structure Config where
  iv       : Vector Word 5
  rot      : Rot
  kround   : Word
  padLimit : Nat
  /-- `DATA_BYTES_MAX`, the bytes one ABSORB takes from `DATA` at most (R9; log 16). -/
  dataBytesMax : Nat
  deriving DecidableEq, Repr

end Sys2Proof
end

