-- ==== Sys2Proof/Machine/Params.lean ====
section
/-! DEFINITION. Params: the defaults of the open parameters (spec/00_scope.md R9, spec/92_eei_decisions.md D2, D5, D8, D9, D10) and
their legal range (R9, spec/42_compress_pad.md R156). -/

namespace Sys2Proof.Machine

/-- The default of `IV` (R9). PRESUMED, unsafe: the spec itself takes these words from general knowledge (D8, G1; log 6). -/
def defaultIv : Vector Word 5 :=
  #v[0x67452301, 0xEFCDAB89, 0x98BADCFE, 0x10325476, 0xC3D2E1F0]

/-- The default of `ROT` (R9, D9, C3). -/
def defaultRot : Rot :=
  { rIn := 5, rTop := 5, rB := 25, rC := 15, rD := 30, rE := 10 }

/-- The defaults of R9. -/
def defaultConfig : Config :=
  { iv := defaultIv, rot := defaultRot, kround := 0, padLimit := 55, dataBytesMax := 4 }

/-- The default of `REG_WINDOW`, in bytes (R9, D2). -/
def defaultRegWindow : Nat := 256

/-- The six amounts are in 0..31 (R9). -/
def rotOk (r : Rot) : Bool :=
  r.rIn < 32 && r.rTop < 32 && r.rB < 32 && r.rC < 32 && r.rD < 32 && r.rE < 32

/-- The parameters a model may be instantiated with: every rotation amount in 0..31 (R9) and `PAD_LIMIT` 55 or 56
(R156). Any other value is refused `BAD_PARAMETER` (R172), whose table names these two parameters and no other. -/
def paramsOk (c : Config) : Bool :=
  rotOk c.rot && (c.padLimit = 55 || c.padLimit = 56)

end Sys2Proof.Machine
end

