-- ==== Sys2Proof/Machine/State.lean ====
section
/-! DEFINITION. State: everything the spec gives one MDE instance (spec/10_state.md), as plain data, and the state at
power-on (spec/70_reset_and_hazards.md R190). -/

namespace Sys2Proof.Machine

/-- Why a step stops with a fault: there is no such reason, since the engine raises nothing (R15, R170). The faults of R173 stop
no step: they are recorded in State.faults (FaultReason), and the run goes on (R191, D29, program P6). -/
inductive Fault
  deriving DecidableEq, Repr

/-- The reasons of R173, as the record of State.faults holds them. Whoever reads State.faults learns that the run made an access
for which the spec has no value to give (D12). -/
inductive FaultReason where
  /-- `UNINIT_CONTEXT`: ABSORB, FINALIZE or a read of `STATUS`, `LENLO`, `LENHI`, `H0`..`H4` while `INIT = 0` (R35).
  Recorded by the reads of the context views, by absorb and by finalize. -/
  | uninitContext
  /-- `UNWRITTEN_REGISTER`: a read of `DATA` or `DOUTi` whose written mark is 0, or an ABSORB that would copy bytes from
  such a `DATA` (R36). Recorded by the reads of DATA and DOUT and by absorb. -/
  | unwrittenRegister
  deriving DecidableEq, Repr

/-- Why a step is refused: the reasons of R172, and notModelled. All are SAFE: a refused access changes nothing and the spec
gives it no meaning (D13). -/
inductive Refusal where
  /-- An arm of exec that has no meaning yet; no arm of this model uses it. -/
  | notModelled (mnemonic : String)
  /-- `ACCESS_WIDTH` (R54). Raised by step when it decodes an access of other than 32 bits. Safe. -/
  | accessWidth
  /-- `MISALIGNED` (R54). Raised by step when it decodes an access at an offset that is no multiple of 4. Safe. -/
  | misaligned
  /-- `RESERVED_OFFSET` (R122). Raised by step when it decodes an access at 0x3C..0xFC. Safe. -/
  | reservedOffset
  /-- `READ_OF_WRITE_ONLY` (R121). Raised by step when it decodes a read of `CMD`. Safe. -/
  | readOfWriteOnly
  /-- `WRITE_OF_READ_ONLY` (R121). Raised by step when it decodes a write of a read-only view. Safe. -/
  | writeOfReadOnly
  /-- `RESERVED_CMD` (R74). Raised by WR.CMD when it decodes its word. Safe. -/
  | reservedCmd
  /-- `RESERVED_NB` (R74). Raised by WR.CMD when it decodes its word, and by absorb for a count above a `DATA_BYTES_MAX`
  that is less than 4 (log 16). Safe. -/
  | reservedNb
  /-- `BAD_PARAMETER` (R172, R156). Raised by every step of a model instantiated with parameters out of range. Safe. -/
  | badParameter
  deriving DecidableEq, Repr

/-- What reaches the engine from outside: a host access (R6), or the platform's reset line, which a loss of power amounts
to as well (R184, R190). -/
inductive HostEvent where
  | access (a : Access)
  | resetLine
  deriving DecidableEq, Repr

/-- One MDE instance. -/
structure State where
  /-- `BLOCK[0..63]`, the staging buffer (R22). -/
  block : Vector Byte 64
  /-- `FILL`, the index of the next free byte of `BLOCK` (R23): below 64 between commands (Safety.lean, State.Inv). -/
  fill : Nat
  /-- `H[0..4]`, the running digest (R24). -/
  h : Vector Word 5
  /-- `LEN_LO` (R25). -/
  lenLo : Word
  /-- `LEN_HI` (R25). -/
  lenHi : Word
  /-- `COMPUTED` (R26). -/
  computed : Bool
  /-- `CORRUPTED` (R27). -/
  corrupted : Bool
  /-- `DATA` (R29). -/
  data : Word
  /-- `DOUT[0..4]` (R30). -/
  dout : Vector Word 5
  /-- `INIT`, the spec's mark that the context exists (R35). -/
  init : Bool
  /-- `WRITTEN_DATA`, the spec's mark (R36). -/
  writtenData : Bool
  /-- `WRITTEN_DOUT[0..4]`, the spec's marks (R36). -/
  writtenDout : Vector Bool 5
  /-- The recorded faults, oldest first (R173): part of the state by R191's table, none at power-on and never cleared (D29).
  No access reads them; a claim takes their absence as a premise (R7). Their order is the model's (log 3). -/
  faults : List FaultReason
  /-- The open parameters the instance was made with (R9); no step writes them (log 6). -/
  cfg : Config
  /-- The events received and not yet performed, oldest first: the order of receipt of R59. The model's own field (log 4). -/
  pending : List HostEvent
  /-- The values the reads returned, oldest first: the observation of R7. The model's own field (log 5). -/
  returned : List Word
  deriving DecidableEq, Repr

/-- Power-on (R190): no context (`INIT = 0`), `DATA` and `DOUT` unwritten, no fault recorded, nothing received and nothing
returned. The spec gives the registers no value here, and every access that would read one records a fault; the zeros are
DESIGN CHOICE, unsafe (log 1). -/
def State.reset : State :=
  { block := Vector.replicate 64 0
    fill := 0
    h := Vector.replicate 5 0
    lenLo := 0
    lenHi := 0
    computed := false
    corrupted := false
    data := 0
    dout := Vector.replicate 5 0
    init := false
    writtenData := false
    writtenDout := Vector.replicate 5 false
    faults := []
    cfg := defaultConfig
    pending := []
    returned := [] }

end Sys2Proof.Machine
end

