-- ==== Sys2Proof/Machine/Flags.lean ====
section
/-! DEFINITION. Flags: the view STATUS (spec/10_state.md R32, spec/40_host_access.md R103) and the engine's one error, the sticky
bit CORRUPTED (spec/60_exceptions.md R170, R171). The engine has no other flag than COMPUTED and CORRUPTED, and raises no
exception (R170, R176). -/

namespace Sys2Proof.Machine

/-- A flag as the word `zext_32` makes of it (R10, R103). -/
def flagWord (b : Bool) : Word := if b then 1 else 0

/-- The value a read of `STATUS` returns (R103): `FILL` in bits 13:8, `CORRUPTED` in bit 1, `COMPUTED` in bit 0. -/
def statusWord (s : State) : Word :=
  (BitVec.ofNat 32 s.fill <<< 8) ||| (flagWord s.corrupted <<< 1) ||| flagWord s.computed

/-- The only way the engine signals an error (R170): `CORRUPTED <- 1`, no cause recorded (R171). -/
def State.corrupt (s : State) : State := { s with corrupted := true }

end Sys2Proof.Machine
end

