-- ==== Sys2Proof/Machine/Operands.lean ====
section
/-! DEFINITION. Operands: the byte-order helpers of spec/00_scope.md R12 and the bytes an ABSORB takes from DATA
(spec/30_encoding.md R75, spec/20_memory.md R52, R53). No instruction has another operand form (R75). -/

namespace Sys2Proof.Machine

/-- `be32(b0, b1, b2, b3)`: the first byte is the most significant (R12). -/
def be32 (b0 b1 b2 b3 : Byte) : Word :=
  (b0.setWidth 32 <<< 24) ||| (b1.setWidth 32 <<< 16) ||| (b2.setWidth 32 <<< 8) ||| b3.setWidth 32

/-- Byte `j` of a word, counted from the most significant: `w[31-8j : 24-8j]`, `j` in 0..3 (R12, R53, R75). -/
def wordByte (w : Word) (j : Nat) : Byte :=
  w.extractLsb' (24 - 8 * j) 8

/-- `bytes_be32(w)` (R12). -/
def bytesBe32 (w : Word) : List Byte :=
  [wordByte w 0, wordByte w 1, wordByte w 2, wordByte w 3]

/-- The bytes `d[0 .. nb-1]` an `ABSORB(nb)` takes from `DATA`; the bytes beyond `nb` are ignored (R75). -/
def absorbBytes (data : Word) (nb : Nat) : List Byte :=
  (bytesBe32 data).take nb

end Sys2Proof.Machine
end

