-- ==== Sys2Proof/Machine/Ops.lean ====
section
/-! DEFINITION. Ops: the shared operations of the accesses: returning a value, recording a fault, reading a context view,
reading and writing the output registers, the state the reset line leaves. The engine takes no exception and returns from none
(R170, R176, R177), so there is no exception entry here; its one error is State.corrupt (Flags.lean). -/

namespace Sys2Proof.Machine

/-- What a meaning answers. -/
abbrev Answer := Host.Outcome State Fault Refusal

/-- The refusal of R172 a decoder's reason stands for. -/
def Refusal.ofReject : Reject → Refusal
  | .accessWidth     => .accessWidth
  | .misaligned      => .misaligned
  | .reservedOffset  => .reservedOffset
  | .readOfWriteOnly => .readOfWriteOnly
  | .writeOfReadOnly => .writeOfReadOnly
  | .reservedCmd     => .reservedCmd
  | .reservedNb      => .reservedNb

/-- The value `v` is returned to the host: it joins the observation (R7), and no engine state changes (R56). -/
def State.answer (v : Word) (s : State) : State := { s with returned := s.returned ++ [v] }

/-- `raise Fault(reason)`: the fault joins the recorded faults (R173, R191, D29), and the run goes on: a later RESET makes the
context usable (program P6). The access ends there: a read returns nothing and writes no state (R102..R115: the raise stands
before the return, "State written: none"), and a command writes nothing else (DEDUCED, from the raise standing before the
writes of R131 and R135, log 2). The record's form: log 3. -/
def State.recordFault (r : FaultReason) (s : State) : State := { s with faults := s.faults ++ [r] }

/-- A read of a view of the hash context: before the first RESET it records `UNINIT_CONTEXT` (R35, R103..R110). -/
def readContext (view : State → Word) (s : State) : Answer :=
  if s.init then .next (s.answer (view s)) else .next (s.recordFault .uninitContext)

/-- A read of `DATA` (R102). -/
def readData (s : State) : Answer :=
  if s.writtenData then .next (s.answer s.data) else .next (s.recordFault .unwrittenRegister)

/-- A write of `DATA` (R101). -/
def State.loadData (v : Word) (s : State) : State := { s with data := v, writtenData := true }

/-- A read of `DOUTi` (R111..R115). -/
def readDout (i : Fin 5) (s : State) : Answer :=
  if s.writtenDout[i] then .next (s.answer s.dout[i]) else .next (s.recordFault .unwrittenRegister)

/-- A write of `DOUTi` by the host (R116..R120). -/
def State.loadDout (i : Fin 5) (v : Word) (s : State) : State :=
  { s with dout := s.dout.set i v, writtenDout := s.writtenDout.set i true }

/-- The platform's reset line, or power lost and restored: the power-on state again (R184, R190). The parameters are those of
the instance, what the host has sent and seen is the host's, and a recorded fault is never cleared (D29; log 10). -/
def State.powerOn (s : State) : State :=
  { State.reset with cfg := s.cfg, pending := s.pending, returned := s.returned, faults := s.faults }

end Sys2Proof.Machine
end

