-- ==== Sys2Proof/Machine/Compress.lean ====
section
/-! DEFINITION. Compress: the engine's internal operations (spec/42_compress_pad.md): the round, the compression, the padding,
the bit counter. No access starts one directly (R5, R16), and none can fault or be refused. -/

namespace Sys2Proof.Machine

/-! ### The round (R11, R151, R154) -/

/-- `rotl32(x, n)` for `n` in 0..31, as R11 writes it. -/
def rotl32 (x : Word) (n : Nat) : Word := (x <<< n) ||| (x >>> (32 - n))

/-- `Ch(b, c, d) = (b & c) | (~b & d)`, the one mixing function (R11, R154). -/
def ch (b c d : Word) : Word := (b &&& c) ||| (~~~b &&& d)

/-- The working words of a compression (R37, R150). -/
structure Work where
  a : Word
  b : Word
  c : Word
  d : Word
  e : Word
  deriving DecidableEq, Repr

/-- `T` of R151, modulo 2^32. -/
def roundSum (cfg : Config) (x : Work) (w : Word) : Word :=
  rotl32 x.a cfg.rot.rIn + ch x.b x.c x.d + x.e + w + cfg.kround

/-- `Round(A, B, C, D, E, w)` (R151). -/
def mdeRound (cfg : Config) (x : Work) (w : Word) : Work :=
  { a := rotl32 (roundSum cfg x w) cfg.rot.rTop
    b := rotl32 x.a cfg.rot.rB
    c := rotl32 x.b cfg.rot.rC
    d := rotl32 x.c cfg.rot.rD
    e := rotl32 x.d cfg.rot.rE }

/-! ### The compression (R150, R152, R153) -/

/-- The message schedule: the bytes as big-endian words, in order, with no expansion (R52, R150). Sixteen words for the 64
bytes of a block. -/
def schedule : List Byte → List Word
  | b0 :: b1 :: b2 :: b3 :: rest => be32 b0 b1 b2 b3 :: schedule rest
  | _ => []

/-- The working words after the rounds, one round per word of the schedule (R150). -/
def rounds (cfg : Config) (x : Work) (ws : List Word) : Work :=
  ws.foldl (mdeRound cfg) x

/-- `H` after the compression of a block's bytes: the feed-forward adds the working words to the `H` before it (R150,
R152). -/
def compressWords (cfg : Config) (h : Vector Word 5) (bytes : List Byte) : Vector Word 5 :=
  let x := rounds cfg ⟨h[0], h[1], h[2], h[3], h[4]⟩ (schedule bytes)
  #v[h[0] + x.a, h[1] + x.b, h[2] + x.c, h[3] + x.d, h[4] + x.e]

/-- `Compress()` (R150): folds `BLOCK` into `H` and leaves `FILL = 0` (R153). -/
def State.compress (s : State) : State :=
  { s with h := compressWords s.cfg s.h s.block.toList, fill := 0 }

/-! ### Writing BLOCK -/

/-- `bytes` written to consecutive positions of a block from `at_` on. A position above 63 does not exist and takes nothing;
no command reaches one (log 11). Irreducible, so that a unifier does not compute blocks of symbolic bytes: cite the laws of
Laws/Compress.lean, or unfold it by name. -/
@[irreducible] def blockPut (b : Vector Byte 64) (at_ : Nat) : List Byte → Vector Byte 64
  | []          => b
  | d :: rest => blockPut (b.setIfInBounds at_ d) (at_ + 1) rest

/-- `bytes` written to `BLOCK[FILL ..]` in order, `FILL` advanced by their number (R133, R155). -/
def State.put (bytes : List Byte) (s : State) : State :=
  { s with block := blockPut s.block s.fill bytes, fill := s.fill + bytes.length }

/-- `while FILL < n: BLOCK[FILL] <- 0x00; FILL <- FILL + 1` (R155). -/
def State.zeroFill (n : Nat) (s : State) : State :=
  s.put (List.replicate (n - s.fill) 0)

/-! ### The padding (R155, R156, R157) -/

/-- `bytes_be32(LEN_HI) ‖ bytes_be32(LEN_LO)`, the length field (R157). -/
def lenBytes (s : State) : List Byte := bytesBe32 s.lenHi ++ bytesBe32 s.lenLo

/-- `BLOCK[56..63] <- ` the length field; `FILL` is not written (R155, R157). -/
def State.putLen (s : State) : State := { s with block := blockPut s.block 56 (lenBytes s) }

/-- The extra padding block, compressed when the fill index after the 0x80 byte exceeds `PAD_LIMIT` (R156). -/
def State.padExtra (s : State) : State :=
  if s.fill > s.cfg.padLimit then (s.zeroFill 64).compress else s

/-- `Pad()` (R155). -/
def State.pad (s : State) : State :=
  ((s.put [0x80]).padExtra.zeroFill 56).putLen.compress

/-! ### The bit counter (R158) -/

/-- The exact sum `LEN_LO + 8·k` (R158). -/
def countSum (k : Nat) (s : State) : Nat := s.lenLo.toNat + 8 * k

/-- The low half overflows past 2^32 (R158). -/
def carries (k : Nat) (s : State) : Bool := decide (2 ^ 32 ≤ countSum k s)

/-- `Count(k)`'s write of `LEN_LO` and `LEN_HI`: a carry adds one to the high half, modulo 2^32 (R158). -/
def State.count (k : Nat) (s : State) : State :=
  { s with
    lenLo := BitVec.ofNat 32 (countSum k s)
    lenHi := if carries k s then s.lenHi + 1 else s.lenHi }

/-- `Count(k)` reports `WRAPPED`: the low half carried and the high half is zero after it (R158). -/
def wraps (k : Nat) (s : State) : Bool := carries k s && s.lenHi + 1 == 0

end Sys2Proof.Machine
end

