-- ==== Sys2Proof/Machine/Commands.lean ====
section
/-! DEFINITION. Commands: RESET, ABSORB and FINALIZE (spec/41_commands.md), and the command port through which a host performs them
(spec/40_host_access.md R100). -/

namespace Sys2Proof.Machine

/-! ### RESET (R130) -/

/-- R130's writes, all of them: the context is created; `BLOCK`, `DATA`, `DOUT` and the written marks stay. -/
def State.createContext (s : State) : State :=
  { s with
    fill := 0
    lenLo := 0
    lenHi := 0
    h := s.cfg.iv
    computed := false
    corrupted := false
    init := true }

/-- `RESET` (R130): no failure mode, valid in every state. -/
def execReset (s : State) : Answer := .next s.createContext

/-! ### ABSORB (R131..R134) -/

/-- The length of the next chunk: the bytes left, bounded by the room in the block (R133). -/
def chunkLen (bytes : List Byte) (s : State) : Nat := min bytes.length (64 - s.fill)

/-- One chunk copied, and the block compressed if it is full (R133, in this order: D11). -/
def State.chunk (bytes : List Byte) (s : State) : State :=
  let s' := s.put bytes
  if s'.fill = 64 then s'.compress else s'

/-- The chunk loop (R131, R133, R134): after each chunk the bit counter is advanced, and a wrap sets `CORRUPTED` and ends the
command. `fuel` bounds the number of chunks: each takes at least one byte while `FILL < 64` (log 11). -/
def absorbLoop : Nat → List Byte → State → State
  | 0, _, s => s
  | _ + 1, [], s => s
  | fuel + 1, d :: ds, s =>
    let k := chunkLen (d :: ds) s
    let s' := s.chunk ((d :: ds).take k)
    if wraps k s' then (s'.count k).corrupt
    else absorbLoop fuel ((d :: ds).drop k) (s'.count k)

/-- `ABSORB(nb)` (R131), in R131's order of checks (R132, R174). The first test is of the parameter `DATA_BYTES_MAX` (R9): a
count above it is reserved, as R74 says of counts above the default 4. DESIGN CHOICE, safe, where the parameter is below 4
(log 16); with the default the test never fails. -/
def absorb (nb : Nat) (s : State) : Answer :=
  if s.cfg.dataBytesMax < nb then .refused .reservedNb
  else if s.init = false then .next (s.recordFault .uninitContext)
  else if nb = 0 then .next s
  else if s.computed = true ∨ s.corrupted = true then .next s.corrupt
  else if s.writtenData = false then .next (s.recordFault .unwrittenRegister)
  else .next (absorbLoop nb (absorbBytes s.data nb) s)

/-- `ABSORB 0` (R131, R132 (a)). -/
def execAbsorb0 (s : State) : Answer := absorb 0 s

/-- `ABSORB 1` (R131). -/
def execAbsorb1 (s : State) : Answer := absorb 1 s

/-- `ABSORB 2` (R131). -/
def execAbsorb2 (s : State) : Answer := absorb 2 s

/-- `ABSORB 3` (R131). -/
def execAbsorb3 (s : State) : Answer := absorb 3 s

/-- `ABSORB 4` (R131). -/
def execAbsorb4 (s : State) : Answer := absorb 4 s

/-! ### FINALIZE (R135..R138) -/

/-- The output copy: `DOUT[i] <- H[i]` and the written marks, all five words (R136). -/
def State.copyOut (s : State) : State :=
  { s with dout := s.h, writtenDout := Vector.replicate 5 true }

/-- `Pad()`, then `COMPUTED <- 1` (R135). -/
def State.finish (s : State) : State := { s.pad with computed := true }

/-- `FINALIZE` (R135): `INIT`, then `CORRUPTED` (R137), then `COMPUTED` (R138). -/
def execFinalize (s : State) : Answer :=
  if s.init = false then .next (s.recordFault .uninitContext)
  else if s.corrupted = true then .next s
  else if s.computed = true then .next s.copyOut
  else .next s.finish.copyOut

/-! ### The command port (R100) -/

/-- The command a CMD word spells, performed whole (R5, R55, R100). -/
def performCmd (c : Cmd) (s : State) : Answer :=
  match c with
  | .reset    => execReset s
  | .absorb0  => execAbsorb0 s
  | .absorb1  => execAbsorb1 s
  | .absorb2  => execAbsorb2 s
  | .absorb3  => execAbsorb3 s
  | .absorb4  => execAbsorb4 s
  | .finalize => execFinalize s

/-- `WR.CMD` (R100): decode the word, then perform the command; the word is not retained (R31). -/
def execWrCmd (v : Word) (s : State) : Answer :=
  match decodeCmd v with
  | .ok c    => performCmd c s
  | .error r => .refused (Refusal.ofReject r)

end Sys2Proof.Machine
end

