-- ==== Sys2Proof/Machine/HostAccess.lean ====
section
/-! DEFINITION. HostAccess: the accesses to the data register, the context views and the output registers
(spec/40_host_access.md R101..R120), one definition each over the operations of Ops.lean. WR.CMD stands in Commands.lean. -/

namespace Sys2Proof.Machine

/-- `WR.DATA` (R101). -/
def execWrData (v : Word) (s : State) : Answer := .next (s.loadData v)

/-- `RD.DATA` (R102). -/
def execRdData (s : State) : Answer := readData s

/-- `RD.STATUS` (R103). -/
def execRdStatus (s : State) : Answer := readContext statusWord s

/-- `RD.LENLO` (R104). -/
def execRdLenlo (s : State) : Answer := readContext State.lenLo s

/-- `RD.LENHI` (R105). -/
def execRdLenhi (s : State) : Answer := readContext State.lenHi s

/-- `RD.H0` (R106). -/
def execRdH0 (s : State) : Answer := readContext (fun s => s.h[0]) s

/-- `RD.H1` (R107). -/
def execRdH1 (s : State) : Answer := readContext (fun s => s.h[1]) s

/-- `RD.H2` (R108). -/
def execRdH2 (s : State) : Answer := readContext (fun s => s.h[2]) s

/-- `RD.H3` (R109). -/
def execRdH3 (s : State) : Answer := readContext (fun s => s.h[3]) s

/-- `RD.H4` (R110). -/
def execRdH4 (s : State) : Answer := readContext (fun s => s.h[4]) s

/-- `RD.DOUT0` (R111). -/
def execRdDout0 (s : State) : Answer := readDout 0 s

/-- `RD.DOUT1` (R112). -/
def execRdDout1 (s : State) : Answer := readDout 1 s

/-- `RD.DOUT2` (R113). -/
def execRdDout2 (s : State) : Answer := readDout 2 s

/-- `RD.DOUT3` (R114). -/
def execRdDout3 (s : State) : Answer := readDout 3 s

/-- `RD.DOUT4` (R115). -/
def execRdDout4 (s : State) : Answer := readDout 4 s

/-- `WR.DOUT0` (R116). -/
def execWrDout0 (v : Word) (s : State) : Answer := .next (s.loadDout 0 v)

/-- `WR.DOUT1` (R117). -/
def execWrDout1 (v : Word) (s : State) : Answer := .next (s.loadDout 1 v)

/-- `WR.DOUT2` (R118). -/
def execWrDout2 (v : Word) (s : State) : Answer := .next (s.loadDout 2 v)

/-- `WR.DOUT3` (R119). -/
def execWrDout3 (v : Word) (s : State) : Answer := .next (s.loadDout 3 v)

/-- `WR.DOUT4` (R120). -/
def execWrDout4 (v : Word) (s : State) : Answer := .next (s.loadDout 4 v)

end Sys2Proof.Machine
end

