-- ==== Sys2Proof/Machine/Dispatch.lean ====
section
/-! DEFINITION. Dispatch: one arm per row of spec/opcode_table.json, each one call of the row's meaning. -/

namespace Sys2Proof.Machine

open Sys2Proof

def exec (i : Instr) (s : State) : Host.Outcome State Fault Refusal :=
  match i with
  | .wrCmd v => Sys2Proof.Machine.execWrCmd v s
  | .wrData v => Sys2Proof.Machine.execWrData v s
  | .rdData => Sys2Proof.Machine.execRdData s
  | .rdStatus => Sys2Proof.Machine.execRdStatus s
  | .rdLenlo => Sys2Proof.Machine.execRdLenlo s
  | .rdLenhi => Sys2Proof.Machine.execRdLenhi s
  | .rdH0 => Sys2Proof.Machine.execRdH0 s
  | .rdH1 => Sys2Proof.Machine.execRdH1 s
  | .rdH2 => Sys2Proof.Machine.execRdH2 s
  | .rdH3 => Sys2Proof.Machine.execRdH3 s
  | .rdH4 => Sys2Proof.Machine.execRdH4 s
  | .rdDout0 => Sys2Proof.Machine.execRdDout0 s
  | .rdDout1 => Sys2Proof.Machine.execRdDout1 s
  | .rdDout2 => Sys2Proof.Machine.execRdDout2 s
  | .rdDout3 => Sys2Proof.Machine.execRdDout3 s
  | .rdDout4 => Sys2Proof.Machine.execRdDout4 s
  | .wrDout0 v => Sys2Proof.Machine.execWrDout0 v s
  | .wrDout1 v => Sys2Proof.Machine.execWrDout1 v s
  | .wrDout2 v => Sys2Proof.Machine.execWrDout2 v s
  | .wrDout3 v => Sys2Proof.Machine.execWrDout3 v s
  | .wrDout4 v => Sys2Proof.Machine.execWrDout4 v s
  | .reset => Sys2Proof.Machine.execReset s
  | .absorb0 => Sys2Proof.Machine.execAbsorb0 s
  | .absorb1 => Sys2Proof.Machine.execAbsorb1 s
  | .absorb2 => Sys2Proof.Machine.execAbsorb2 s
  | .absorb3 => Sys2Proof.Machine.execAbsorb3 s
  | .absorb4 => Sys2Proof.Machine.execAbsorb4 s
  | .finalize => Sys2Proof.Machine.execFinalize s

end Sys2Proof.Machine
end

