-- ==== Sys2Proof/Machine/Fetch.lean ====
section
/-! DEFINITION. Fetch: how a host event reaches the engine. The MDE fetches no instructions (spec/10_state.md R21): its
instructions are the accesses it receives, performed one at a time in the order of receipt (spec/20_memory.md R55, R59). -/

namespace Sys2Proof.Machine

/-- The first pending event taken off the queue. -/
def State.popEvent (rest : List HostEvent) (s : State) : State := { s with pending := rest }

/-- An event put before every other pending one. -/
def State.pushEvent (e : HostEvent) (s : State) : State := { s with pending := e :: s.pending }

/-- One access: R123's checks and decoding, then the access rule (R123, step 6). -/
def performAccess (exec : Instr → State → Answer) (a : Access) (s : State) : Answer :=
  match decodeAccess a with
  | .ok i    => exec i s
  | .error r => .refused (Refusal.ofReject r)

/-- One step over the meanings `exec`: a model with parameters out of range is refused (R156, R172; log 7), an engine that
has received nothing is idle (R6, R184), an asserted reset line gives the power-on state (R190), and an access is performed
whole (R5, R55). -/
def runStep (exec : Instr → State → Answer) (s : State) : Answer :=
  if paramsOk s.cfg = false then .refused .badParameter
  else
    match s.pending with
    | []                  => .next s
    | .resetLine :: rest  => .next (s.popEvent rest).powerOn
    | .access a :: rest   => performAccess exec a (s.popEvent rest)

/-- The host makes the access of an `nbits`-bit table word `w` next: it is received before every other pending event. -/
def placeInstr (nbits w : Nat) (s : State) : State :=
  s.pushEvent (.access (tableAccess nbits w))

end Sys2Proof.Machine
end

