-- ==== Sys2Proof/Machine/Step.lean ====
section
/-! DEFINITION. Step: one step of the machine is one host event performed whole (spec/00_scope.md R5, R6). -/

namespace Sys2Proof.Machine

/-- One step (R5): Fetch.lean's runStep over Dispatch.lean's exec. -/
def step (s : State) : Host.Outcome State Fault Refusal := runStep exec s

/-- The host makes the access of the table word `w` next (log 4, log 8). -/
def State.withFetchWord (s : State) (nbits w : Nat) : State := placeInstr nbits w s

end Sys2Proof.Machine
end

