-- ==== Sys2Proof/Machine/HostProgram.lean ====
section
/-! DEFINITION. HostProgram: the pseudo-instructions of spec/30_encoding.md R79 as the accesses they expand to, and the
sequence that computes one digest (spec/70_reset_and_hazards.md R193). Host-side text, no part of the engine. -/

namespace Sys2Proof.Machine

/-- `WR CMD, RESET` (R78, R79 `CMD.RESET`). -/
def cmdReset : List Access := [Instr.reset.access]

/-- `WR CMD, FINALIZE` (R78, R79 `CMD.FINALIZE`). -/
def cmdFinalize : List Access := [Instr.finalize.access]

/-- `WR CMD, ABSORB nb` for `nb` in 0..4 (R78); no other count is admitted. -/
def cmdAbsorb : Nat → Access
  | 0 => Instr.absorb0.access
  | 1 => Instr.absorb1.access
  | 2 => Instr.absorb2.access
  | 3 => Instr.absorb3.access
  | _ => Instr.absorb4.access

/-- `ABSORBW w, nb`: `WR DATA, w` then `WR CMD, ABSORB nb` (R79). -/
def absorbW (w : Word) (nb : Nat) : List Access := [(Instr.wrData w).access, cmdAbsorb nb]

/-- Up to four bytes as a `DATA` value, the first most significant, missing bytes 0x00 (R79). -/
def packBytes (c : List Byte) : Word := be32 (c.getD 0 0) (c.getD 1 0) (c.getD 2 0) (c.getD 3 0)

/-- One chunk of at most four bytes: `ABSORBW` of its bytes and their number (R75, R79). -/
def absorbChunk (c : List Byte) : List Access := absorbW (packBytes c) c.length

/-- `ABSORBBUF` of a nonempty string: four bytes per ABSORB, then the remainder with missing bytes 0x00 (R79). -/
def absorbGroups : List Byte → List Access
  | b0 :: b1 :: b2 :: b3 :: rest => absorbChunk [b0, b1, b2, b3] ++ absorbGroups rest
  | []   => []
  | rest => absorbChunk rest

/-- `ABSORBBUF b0 .. bL-1` (R79): for the empty string, one `ABSORB 0`. -/
def absorbBuf : List Byte → List Access
  | []      => [cmdAbsorb 0]
  | b :: bs => absorbGroups (b :: bs)

/-- The reads of the digest, `RD DOUT0` .. `RD DOUT4` (R79, R193). -/
def doutReads : List Access :=
  [Instr.rdDout0.access, Instr.rdDout1.access, Instr.rdDout2.access, Instr.rdDout3.access, Instr.rdDout4.access]

/-- `FINALIZE` and `RD STATUS`, the part of `DIGEST` and of R193 that a host makes whatever STATUS says. -/
def finalizeStatus : List Access := cmdFinalize ++ [Instr.rdStatus.access]

/-- The pseudo-instruction `DIGEST` (R79): its expansion reads DOUT0..DOUT4 whatever STATUS says. -/
def digestReads : List Access := finalizeStatus ++ doutReads

/-- `CMD.RESET`, `ABSORBBUF m`, `DIGEST`: the pseudo-instructions of R79 in a row. The host of R193, who looks at STATUS
first, is oneHash. -/
def hashProgram (m : List Byte) : List Access := cmdReset ++ absorbBuf m ++ digestReads

/-! ### A host that looks at what it reads (R193) -/

/-- An instance performs one access. The access is put before every event the instance has pending, and those stay pending:
DESIGN CHOICE, safe (log 18). -/
def serve (a : Access) (e : State) : Answer := step (e.pushEvent (.access a))

/-- A list of accesses made one after the other; it stops at the first refusal (no step stops with a fault, R15). -/
def serveAll : List Access → State → Answer
  | [], s => .next s
  | a :: as, s =>
    match serve a s with
    | .next t    => serveAll as t
    | .fault f   => .fault f
    | .refused r => .refused r

/-- R193 up to the read of STATUS: RESET, the ABSORBs that carry the message, FINALIZE, `RD STATUS`. -/
def hashToStatus (m : List Byte) : List Access := cmdReset ++ absorbBuf m ++ finalizeStatus

/-- What R193's host reads after STATUS: DOUT0..DOUT4 if `STATUS[1] = 0`, else nothing. -/
def readsAfterStatus (status : Word) : List Access := if status.getLsbD 1 then [] else doutReads

/-- The value the last read returned. Its one use stands after a RESET and a read of STATUS, which then returns a value (R103), so
the 0 of an empty list is never taken. -/
def State.lastRead (s : State) : Word := s.returned.getLastD 0

/-- One hash of the message `m`, as R193's host makes it: it reads the digest only if `STATUS[1] = 0`. -/
def oneHash (m : List Byte) (s : State) : Answer :=
  match serveAll (hashToStatus m) s with
  | .next t    => serveAll (readsAfterStatus t.lastRead) t
  | .fault f   => .fault f
  | .refused r => .refused r

end Sys2Proof.Machine
end

