-- ==== Sys2Proof/Machine/System.lean ====
section
/-! DEFINITION. System: several instances and several host agents (spec/00_scope.md R6, spec/20_memory.md R51, R59,
spec/60_exceptions.md R182). Instances share no state; each agent's accesses are made in its program order; every order of
the agents is admitted, since the agent that goes next is an argument of the step, and so is the reset line of an instance. -/

namespace Sys2Proof.Machine

/-- An access as a host agent makes it: at a host address (R51). -/
structure HostAccess where
  dir  : Dir
  addr : Nat
  size : Nat
  val  : Word
  deriving DecidableEq, Repr

/-- A host agent: the accesses it has still to make, in program order, and the values its reads have returned (R7). -/
structure Agent where
  program  : List HostAccess
  received : List Word
  deriving DecidableEq, Repr

/-- The parameter `REG_WINDOW` in bytes (R9), the base `MDE_BASE[k]` of each instance's window, the `N_ENGINES` instances, and
the host agents (R51, R182). -/
structure System where
  regWindow : Nat
  bases   : List Nat
  engines : List State
  agents  : List Agent
  deriving DecidableEq, Repr

/-- R51's and I16's constraints on the bases: one per instance, each 256-byte aligned, all different. -/
def System.basesOk (sys : System) : Bool :=
  sys.bases.length = sys.engines.length && sys.bases.all (· % 256 = 0) && decide sys.bases.Nodup

/-- The instance whose window of `w` bytes holds a host address, counted from `k` (R51, R57). -/
def routeFrom (w k : Nat) (bases : List Nat) (addr : Nat) : Option Nat :=
  match bases with
  | [] => none
  | b :: bs => if b ≤ addr ∧ addr < b + w then some k else routeFrom w (k + 1) bs addr

/-- The bytes of a window a host can reach: `REG_WINDOW`, and no more than the 256 that an 8-bit `OFF` addresses (R71; for a
`REG_WINDOW` above 256, DESIGN CHOICE, log 16). -/
def System.reach (sys : System) : Nat := min sys.regWindow 256

/-- The instance a host address reaches, if it is in a window at all. -/
def System.route (sys : System) (addr : Nat) : Option Nat := routeFrom sys.reach 0 sys.bases addr

/-- The access an instance receives: the offset is the host address minus the base (R51). -/
def HostAccess.atBase (a : HostAccess) (base : Nat) : Access :=
  { dir := a.dir, off := BitVec.ofNat 8 (a.addr - base), size := a.size, val := a.val }

/-- The agent's next access is taken from its program, and the values it returned join what the agent received. -/
def Agent.advance (ag : Agent) (vs : List Word) : Agent :=
  { program := ag.program.tail, received := ag.received ++ vs }

/-- Instance `k` answers agent `j`. -/
def System.answered (sys : System) (j k : Nat) (ag : Agent) (e e' : State) : System :=
  { sys with
    engines := sys.engines.set k e'
    agents := sys.agents.set j (ag.advance (e'.returned.drop e.returned.length)) }

/-- An access outside every window is the platform's (R57): no instance sees it, and the agent goes on. -/
def System.passedBy (sys : System) (j : Nat) (ag : Agent) : System :=
  { sys with agents := sys.agents.set j (ag.advance []) }

/-- Agent `j` makes access `a`. -/
def System.access (sys : System) (j : Nat) (ag : Agent) (a : HostAccess) :
    Host.Outcome System Fault Refusal :=
  match sys.route a.addr with
  | none => .next (sys.passedBy j ag)
  | some k =>
    match sys.engines[k]?, sys.bases[k]? with
    | some e, some base =>
      match serve (a.atBase base) e with
      | .next e'   => .next (sys.answered j k ag e e')
      | .fault r   => .fault r
      | .refused r => .refused r
    | _, _ => .next (sys.passedBy j ag)

/-- Agent `j` makes its next access, if it has one; accesses are performed one at a time (R55, R59). The instance performs it
before any event it has pending, and no step of a system performs those: DESIGN CHOICE, safe (log 18). -/
def System.step (sys : System) (j : Nat) : Host.Outcome System Fault Refusal :=
  match sys.agents[j]? with
  | none => .next sys
  | some ag =>
    match ag.program with
    | []     => .next sys
    | a :: _ => sys.access j ag a

/-- The platform asserts the reset line of instance `k`, or its power is lost and restored (R184, R190). That a line reaches one
instance alone, and comes before any event the instance has pending, is DESIGN CHOICE, safe (log 19). -/
def System.resetLine (sys : System) (k : Nat) : Host.Outcome System Fault Refusal :=
  match sys.engines[k]? with
  | none => .next sys
  | some e =>
    match Machine.step (e.pushEvent .resetLine) with
    | .next e'   => .next { sys with engines := sys.engines.set k e' }
    | .fault r   => .fault r
    | .refused r => .refused r

/-- What can happen next in a system: an agent makes an access, or the platform resets an instance (R6, R190). -/
inductive SystemEvent where
  | agent (j : Nat)
  | resetLine (k : Nat)
  deriving DecidableEq, Repr

/-- One event of a system; every order of events is some list of them (R59, log 13). -/
def System.perform (sys : System) : SystemEvent → Host.Outcome System Fault Refusal
  | .agent j     => sys.step j
  | .resetLine k => sys.resetLine k

end Sys2Proof.Machine
end

