-- ==== Sys2Proof/Safety.lean ====
section
/-! DEFINITION. Safety: what counts as a safe run (spec/00_scope.md R7, spec/60_exceptions.md R172, R173), the invariant of the hash
context (spec/10_state.md R28), and the functions of a whole message that claims speak of (spec/42_compress_pad.md R160). -/

namespace Sys2Proof.Machine

/-! ### A run and its record -/

/-- A run as the spec's model keeps it: the state, with the faults recorded in it (R173, R191), and the refusals: R172 marks
the whole run refused. Machine.step ends in a refusal (R15); here the run goes on after it, with the engine unchanged (log 3). -/
structure RunRecord where
  state    : State
  refusals : List Refusal
  deriving DecidableEq, Repr

/-- Power-on: nothing recorded (R191). -/
def RunRecord.powerOn : RunRecord := { state := State.reset, refusals := [] }

/-- The state after an event that was refused: the event is gone, nothing else changed (R172). -/
def State.dropEvent (s : State) : State := { s with pending := s.pending.tail }

/-- One event of a recorded run. -/
def RunRecord.step (r : RunRecord) : RunRecord :=
  match Machine.step r.state with
  | .next s    => { r with state := s }
  | .fault f   => nomatch f
  | .refused f => { r with state := r.state.dropEvent, refusals := r.refusals ++ [f] }

/-- A run is safe while no fault and no refusal is recorded: what R7 asks of a claim. -/
def RunRecord.Safe (r : RunRecord) : Prop := r.state.faults = [] ∧ r.refusals = []

/-! ### The invariant of the hash context -/

/-- `LEN = LEN_HI ‖ LEN_LO`, the 64-bit count (R25). -/
def State.len (s : State) : Nat := s.lenHi.toNat * 2 ^ 32 + s.lenLo.toNat

/-- The context takes message bytes: created, neither finished nor corrupted (R131). -/
abbrev State.Open (s : State) : Prop :=
  s.init = true ∧ s.computed = false ∧ s.corrupted = false

/-- What holds between any two accesses: the parameters are legal; `FILL < 64` (R28); the count is one of whole bytes (R158);
until the padding, `FILL` is the count of bytes modulo the block; after FINALIZE `FILL = 0` and the digest has been written
(R28, R135); before the first RESET no flag is set. -/
abbrev State.Inv (s : State) : Prop :=
  paramsOk s.cfg = true ∧
  s.fill < 64 ∧
  s.len % 8 = 0 ∧
  (s.computed = false → s.fill = s.len / 8 % 64) ∧
  (s.computed = true → s.fill = 0 ∧ s.writtenDout = Vector.replicate 5 true) ∧
  (s.init = false → s.computed = false ∧ s.corrupted = false)

/-- Two states that differ only in bytes of `BLOCK` at or beyond `FILL`: the stale bytes of R39. -/
abbrev State.SameButStale (s t : State) : Prop :=
  t = { s with block := t.block } ∧ ∀ j : Fin 64, j.val < s.fill → s.block[j] = t.block[j]

/-! ### Names for the rows claims speak of -/

/-- The command an instruction performs, if it performs one: a CMD row its own, a write to `CMD` the one its word spells
(R70, R100). -/
def commandOf : Instr → Option Cmd
  | .wrCmd v  => (decodeCmd v).toOption
  | .reset    => some .reset
  | .absorb0  => some .absorb0
  | .absorb1  => some .absorb1
  | .absorb2  => some .absorb2
  | .absorb3  => some .absorb3
  | .absorb4  => some .absorb4
  | .finalize => some .finalize
  | .wrData _ | .rdData | .rdStatus | .rdLenlo | .rdLenhi
  | .rdH0 | .rdH1 | .rdH2 | .rdH3 | .rdH4
  | .rdDout0 | .rdDout1 | .rdDout2 | .rdDout3 | .rdDout4
  | .wrDout0 _ | .wrDout1 _ | .wrDout2 _ | .wrDout3 _ | .wrDout4 _ => none

/-- The bytes a command takes from `DATA` (R74, R75). -/
def cmdBytes : Cmd → Nat
  | .absorb1 => 1
  | .absorb2 => 2
  | .absorb3 => 3
  | .absorb4 => 4
  | .reset | .absorb0 | .finalize => 0

/-- `ABSORB(nb)` as a command, `nb` in 1..4 (any other count stands for `nb = 4`). -/
def absorbCmd : Nat → Cmd
  | 1 => .absorb1
  | 2 => .absorb2
  | 3 => .absorb3
  | _ => .absorb4

/-- `ABSORB(nb)` as a row, `nb` in 1..4. -/
def absorbRow (nb : Nat) : Instr := (absorbCmd nb).instr

/-- The rows that read a register (R80). -/
def readRows : List Instr :=
  [.rdData, .rdStatus, .rdLenlo, .rdLenhi, .rdH0, .rdH1, .rdH2, .rdH3, .rdH4,
   .rdDout0, .rdDout1, .rdDout2, .rdDout3, .rdDout4]

/-- The rows that read the hash context (R35). -/
def contextReadRows : List Instr :=
  [.rdStatus, .rdLenlo, .rdLenhi, .rdH0, .rdH1, .rdH2, .rdH3, .rdH4]

/-- The row that writes `v` to `DOUTi` (R116..R120). -/
def wrDoutRow (i : Fin 5) (v : Word) : Instr :=
  match i with
  | 0 => .wrDout0 v
  | 1 => .wrDout1 v
  | 2 => .wrDout2 v
  | 3 => .wrDout3 v
  | 4 => .wrDout4 v

/-- The row that reads `DOUTi` (R111..R115). -/
def rdDoutRow (i : Fin 5) : Instr :=
  match i with
  | 0 => .rdDout0
  | 1 => .rdDout1
  | 2 => .rdDout2
  | 3 => .rdDout3
  | 4 => .rdDout4

/-! ### The fault table (R173) -/

/-- The accesses R173 lists for `UNINIT_CONTEXT`: with `INIT = 0`, a read of a context view, or any command but RESET. -/
abbrev UninitAccess (i : Instr) (s : State) : Prop :=
  s.init = false ∧ (i ∈ contextReadRows ∨ (commandOf i).any (· ≠ .reset) = true)

/-- The accesses R173 lists for `UNWRITTEN_REGISTER`: a read of `DATA` or `DOUTi` never written, or an ABSORB of bytes on an
open context with `DATA` never written. -/
abbrev UnwrittenAccess (i : Instr) (s : State) : Prop :=
  (i = .rdData ∧ s.writtenData = false) ∨
  (∃ k : Fin 5, i = rdDoutRow k ∧ s.writtenDout[k] = false) ∨
  (s.Open ∧ s.writtenData = false ∧ (commandOf i).any (fun c => cmdBytes c ≠ 0) = true)

/-! ### Functions of a whole message -/

/-- One message byte absorbed: into `BLOCK`, compressed when the block is full, and counted. The reading of ABSORB one byte
at a time, which R139 says the chunks do not matter to. -/
def State.absorbByte (s : State) (d : Byte) : State := (s.chunk [d]).count 1

/-- A string absorbed byte by byte. -/
def State.absorbString (s : State) (m : List Byte) : State := m.foldl State.absorbByte s

/-- The number of zero bytes of the padding (R160). -/
def padZeros (padLimit len : Nat) : Nat :=
  if padLimit = 55 ∧ len % 64 = 55 then 64 else (119 - len % 64) % 64

/-- The padded message: the message, 0x80, the zeros, and the bit length in eight big-endian bytes (R160). -/
def padMessage (padLimit : Nat) (m : List Byte) : List Byte :=
  m ++ [0x80] ++ List.replicate (padZeros padLimit m.length) 0 ++
    bytesBe32 (BitVec.ofNat 32 (8 * m.length / 2 ^ 32)) ++ bytesBe32 (BitVec.ofNat 32 (8 * m.length))

/-- `n` blocks of 64 bytes folded into `H`, one compression each (R152: `H_n = H_{n-1} + F(H_{n-1}, M_n)`). -/
def foldBlocks (cfg : Config) : Nat → Vector Word 5 → List Byte → Vector Word 5
  | 0, h, _ => h
  | n + 1, h, bytes => foldBlocks cfg n (compressWords cfg h (bytes.take 64)) (bytes.drop 64)

/-- The digest of a message, as five words (R136, R152, R160). -/
def digestOf (cfg : Config) (m : List Byte) : Vector Word 5 :=
  let p := padMessage cfg.padLimit m
  foldBlocks cfg (p.length / 64) cfg.iv p

/-- The accesses a host makes, as the events an engine receives. -/
def eventsOf (as : List Access) : List HostEvent := as.map .access

end Sys2Proof.Machine
end

