-- ==== Sys2Proof/Certificates/Slice0/Obligations.lean ====
section
/-! DEFINITION. Obligations: what the provers are asked to prove of the model, one proposition per statement of
OBLIGATIONS.json. Each docstring names the rules of spec/ it formalises. "Records a fault" is R173's record, a field of State by
R191's table; that it is a list with the newest last is the model's form (log 3). That an ABSORB or FINALIZE which records a
fault does nothing else is read from the pseudocode (log 2); of a read the spec says so. -/

open Sys2Proof Sys2Proof.Machine

/-! ### The data register -/

/-- R101: `WR.DATA` loads `DATA` and its mark in any state, and changes nothing else. -/
def Obligations.WriteDataLoadsDataRegister : Prop :=
  ∀ (v : Word) (s : State),
    decodeAccess ⟨.write, 0x04, 4, v⟩ = .ok (.wrData v) ∧
    exec (.wrData v) s = .next { s with data := v, writtenData := true }

/-- R102: `RD.DATA` returns `DATA`, records a fault while it is unwritten, and returns the last value written: ABSORB does not
change it. -/
def Obligations.ReadDataReturnsLastWrite : Prop :=
  ∀ (v : Word) (s : State),
    decodeAccess ⟨.read, 0x04, 4, v⟩ = .ok .rdData ∧
    (s.writtenData = true → exec .rdData s = .next { s with returned := s.returned ++ [s.data] }) ∧
    (s.writtenData = false → exec .rdData s = .next { s with faults := s.faults ++ [.unwrittenRegister] }) ∧
    (∀ t, exec (.wrData v) s = .next t →
      exec .rdData t = .next { t with returned := t.returned ++ [v] }) ∧
    (∀ i ∈ [Instr.absorb0, .absorb1, .absorb2, .absorb3, .absorb4], ∀ t,
      exec i s = .next t → t.data = s.data ∧ t.writtenData = s.writtenData)

/-- R29: no command changes `DATA`; only a host write does. Byte `j` of an ABSORB is `DATA[31-8j : 24-8j]`. -/
def Obligations.DataPersistsUntilHostWrite : Prop :=
  (∀ (i : Instr) (s t : State), exec i s = .next t →
    (t.data = s.data ∧ t.writtenData = s.writtenData) ∨
    ∃ v, i = .wrData v ∧ t.data = v ∧ t.writtenData = true) ∧
  (∀ (d : Word), ∀ nb ≤ 4, (absorbBytes d nb).length = nb ∧
    ∀ j < nb, ((absorbBytes d nb).getD j 0).toNat = d.toNat / 2 ^ (24 - 8 * j) % 256)

/-! ### The context views -/

/-- R32, R103: the bits of `STATUS`, a view that no access writes. The premise `FILL < 64` is the invariant of
StepKeepsContextInvariant. -/
def Obligations.StatusViewShowsFlagsAndFill : Prop :=
  ∀ (s : State) (x : Word),
    decodeAccess ⟨.read, 0x08, 4, x⟩ = .ok .rdStatus ∧
    decodeAccess ⟨.write, 0x08, 4, x⟩ = .error .writeOfReadOnly ∧
    (s.init = true → s.fill < 64 →
      ∃ v : Word, exec .rdStatus s = .next { s with returned := s.returned ++ [v] } ∧
        v.getLsbD 0 = s.computed ∧
        v.getLsbD 1 = s.corrupted ∧
        v.toNat / 2 ^ 2 % 2 ^ 6 = 0 ∧
        v.toNat / 2 ^ 8 % 2 ^ 6 = s.fill ∧
        v.toNat / 2 ^ 14 = 0) ∧
    (s.init = false → exec .rdStatus s = .next { s with faults := s.faults ++ [.uninitContext] }) ∧
    (∀ t, exec .reset s = .next t →
      exec .rdStatus t = .next { t with returned := t.returned ++ [0x00000000] })

/-- R33, R104..R110: the views `LENLO`, `LENHI`, `H0`..`H4` return their registers, record a fault before the first RESET, and
are read-only. -/
def Obligations.ContextViewsReturnRegisters : Prop :=
  ∀ (s : State) (x : Word),
    (s.init = true →
      exec .rdLenlo s = .next { s with returned := s.returned ++ [s.lenLo] } ∧
      exec .rdLenhi s = .next { s with returned := s.returned ++ [s.lenHi] } ∧
      exec .rdH0 s = .next { s with returned := s.returned ++ [s.h[0]] } ∧
      exec .rdH1 s = .next { s with returned := s.returned ++ [s.h[1]] } ∧
      exec .rdH2 s = .next { s with returned := s.returned ++ [s.h[2]] } ∧
      exec .rdH3 s = .next { s with returned := s.returned ++ [s.h[3]] } ∧
      exec .rdH4 s = .next { s with returned := s.returned ++ [s.h[4]] }) ∧
    (s.init = false → ∀ i ∈ [Instr.rdLenlo, .rdLenhi, .rdH0, .rdH1, .rdH2, .rdH3, .rdH4],
      exec i s = .next { s with faults := s.faults ++ [.uninitContext] }) ∧
    (∀ p ∈ [(0x0C#8, Instr.rdLenlo), (0x10#8, .rdLenhi), (0x14#8, .rdH0), (0x18#8, .rdH1),
            (0x1C#8, .rdH2), (0x20#8, .rdH3), (0x24#8, .rdH4)],
      decodeAccess ⟨.read, p.1, 4, x⟩ = .ok p.2 ∧
      decodeAccess ⟨.write, p.1, 4, x⟩ = .error .writeOfReadOnly)

/-- R35: `INIT` is 0 at power-on, RESET sets it, no instruction clears it, and while it is 0 every ABSORB, every FINALIZE and
every read of a context view records the fault and changes nothing else. An ABSORB of more than `DATA_BYTES_MAX` bytes is
refused instead (log 16). That a faulting ABSORB or FINALIZE changes nothing else is deduced (log 2). -/
def Obligations.ContextFaultsUntilFirstReset : Prop :=
  State.reset.init = false ∧
  (∀ s : State, ∃ t, exec .reset s = .next t ∧ t.init = true) ∧
  (∀ (i : Instr) (s t : State), exec i s = .next t → s.init = true → t.init = true) ∧
  (∀ s : State, s.init = false →
    (∀ i ∈ contextReadRows ++ [.absorb0, .finalize],
      exec i s = .next { s with faults := s.faults ++ [.uninitContext] }) ∧
    ∀ nb ∈ [1, 2, 3, 4], nb ≤ s.cfg.dataBytesMax →
      exec (absorbRow nb) s = .next { s with faults := s.faults ++ [.uninitContext] })

/-! ### The output registers -/

/-- R111..R115: `RD.DOUTi` returns `DOUT[i]`, and records a fault while it is unwritten. -/
def Obligations.ReadDoutReturnsDigestWord : Prop :=
  ∀ (s : State) (x : Word) (i : Fin 5),
    decodeAccess ⟨.read, BitVec.ofNat 8 (0x28 + 4 * i.val), 4, x⟩ = .ok (rdDoutRow i) ∧
    (s.writtenDout[i] = true →
      exec (rdDoutRow i) s = .next { s with returned := s.returned ++ [s.dout[i]] }) ∧
    (s.writtenDout[i] = false →
      exec (rdDoutRow i) s = .next { s with faults := s.faults ++ [.unwrittenRegister] })

/-- R116..R120: `WR.DOUTi` loads `DOUT[i]` and its mark in any state, leaves the other four words, and changes nothing of the
hash context. -/
def Obligations.WriteDoutLoadsOneWord : Prop :=
  ∀ (s : State) (v : Word) (i : Fin 5),
    decodeAccess ⟨.write, BitVec.ofNat 8 (0x28 + 4 * i.val), 4, v⟩ = .ok (wrDoutRow i v) ∧
    ∃ t, exec (wrDoutRow i v) s = .next t ∧
      t = { s with dout := t.dout, writtenDout := t.writtenDout } ∧
      (∀ j : Fin 5, t.dout[j] = if j = i then v else s.dout[j]) ∧
      (∀ j : Fin 5, t.writtenDout[j] = if j = i then true else s.writtenDout[j]) ∧
      exec (rdDoutRow i) t = .next { t with returned := t.returned ++ [v] }

/-- R30: a word of `DOUT` changes only by a host write of it or by a FINALIZE on an uncorrupted context, which copies all five
words of `H`; RESET and a FINALIZE on a corrupted context leave `DOUT` alone. -/
def Obligations.DoutChangesOnlyByHostOrFinalize : Prop :=
  ∀ (i : Instr) (s t : State), exec i s = .next t →
    (t.dout = s.dout ∧ t.writtenDout = s.writtenDout) ∨
    (∃ k v, i = wrDoutRow k v ∧ t.dout = s.dout.set k v) ∨
    (commandOf i = some .finalize ∧ s.corrupted = false ∧ t.dout = t.h ∧
      t.writtenDout = Vector.replicate 5 true)

/-- R36: the written marks are 0 at power-on; they are set by the writes of their registers and by FINALIZE; while one is 0 a
read of its register records a fault, and so does an ABSORB that would copy bytes from `DATA`, and nothing else changes (of the
ABSORB: deduced, log 2); RESET does not change them. -/
def Obligations.WrittenMarksGuardReads : Prop :=
  (State.reset.writtenData = false ∧ State.reset.writtenDout = Vector.replicate 5 false) ∧
  ∀ (s : State),
    (∀ v, ∃ t, exec (.wrData v) s = .next t ∧ t.writtenData = true) ∧
    (∀ k v, ∃ t, exec (wrDoutRow k v) s = .next t ∧ t.writtenDout = s.writtenDout.set k true) ∧
    (s.init = true → s.corrupted = false →
      ∃ t, exec .finalize s = .next t ∧ t.writtenDout = Vector.replicate 5 true) ∧
    (s.writtenData = false → exec .rdData s = .next { s with faults := s.faults ++ [.unwrittenRegister] }) ∧
    (∀ k : Fin 5, s.writtenDout[k] = false →
      exec (rdDoutRow k) s = .next { s with faults := s.faults ++ [.unwrittenRegister] }) ∧
    (s.Open → s.writtenData = false → ∀ nb ∈ [1, 2, 3, 4], nb ≤ s.cfg.dataBytesMax →
      exec (absorbRow nb) s = .next { s with faults := s.faults ++ [.unwrittenRegister] }) ∧
    (∃ t, exec .reset s = .next t ∧ t.writtenData = s.writtenData ∧ t.writtenDout = s.writtenDout)

/-- R173: the fault table, over all instructions. An access the table lists records its fault and changes nothing else; an access
it does not list records none. That an ABSORB or FINALIZE of the table changes nothing else is deduced (log 2). -/
def Obligations.FaultTableIsExact : Prop :=
  ∀ (i : Instr) (s t : State), exec i s = .next t →
    (UninitAccess i s → t = { s with faults := s.faults ++ [.uninitContext] }) ∧
    (UnwrittenAccess i s → t = { s with faults := s.faults ++ [.unwrittenRegister] }) ∧
    (¬ UninitAccess i s → ¬ UnwrittenAccess i s → t.faults = s.faults)

/-- R56: a read changes nothing but the observation, or the fault record (R173), and is idempotent; a write of `DATA` or `DOUTi`
changes only that register and its mark; an instruction that performs no command changes nothing of the hash context; a write to `CMD` is not idempotent.
The observation is the model's field State.returned (log 5). -/
def Obligations.OnlyCommandsChangeTheContext : Prop :=
  (∀ i ∈ readRows, ∀ s t : State, exec i s = .next t →
    (∃ v, t = { s with returned := s.returned ++ [v] } ∧
      exec i t = .next { s with returned := s.returned ++ [v, v] }) ∨
    ∃ f, t = { s with faults := s.faults ++ [f] } ∧
      exec i t = .next { s with faults := s.faults ++ [f, f] }) ∧
  (∀ (s t : State) (v : Word), exec (.wrData v) s = .next t →
    t = { s with data := t.data, writtenData := t.writtenData }) ∧
  (∀ (s t : State) (k : Fin 5) (v : Word), exec (wrDoutRow k v) s = .next t →
    t = { s with dout := t.dout, writtenDout := t.writtenDout } ∧
    ∀ j : Fin 5, j ≠ k → t.dout[j] = s.dout[j] ∧ t.writtenDout[j] = s.writtenDout[j]) ∧
  (∀ (i : Instr) (s t : State), commandOf i = none → exec i s = .next t →
    t = { s with data := t.data, writtenData := t.writtenData, dout := t.dout,
                 writtenDout := t.writtenDout, returned := t.returned, faults := t.faults }) ∧
  (∃ s t u : State, exec (.wrCmd 0x00000012) s = .next t ∧ exec (.wrCmd 0x00000012) t = .next u ∧
    u.len = t.len + 8 ∧ t.len = s.len + 8)

/-! ### RESET -/

/-- R130: RESET, in every state, by itself and through `CMD`: the counters and flags are 0, `H` is `IV`, the context exists;
`BLOCK`, `DATA`, `DOUT`, the marks and the recorded faults stay (R191); two RESETs equal one. -/
def Obligations.ResetCreatesContext : Prop :=
  ∀ s : State,
    decodeCmd 0x00000001 = .ok .reset ∧
    ∃ t, exec .reset s = .next t ∧ exec (.wrCmd 0x00000001) s = .next t ∧
      t = { s with fill := 0, lenLo := 0, lenHi := 0, h := s.cfg.iv, computed := false,
                   corrupted := false, init := true } ∧
      exec .reset t = .next t

/-! ### ABSORB -/

/-- R132: `ABSORB 0` changes nothing whatever the flags hold; on a computed or corrupted context an ABSORB of bytes only sets
`CORRUPTED`. -/
def Obligations.AbsorbCheckOrder : Prop :=
  ∀ s : State, s.init = true →
    exec .absorb0 s = .next s ∧
    (s.computed = true ∨ s.corrupted = true →
      (1 ≤ s.cfg.dataBytesMax → exec .absorb1 s = .next { s with corrupted := true }) ∧
      (2 ≤ s.cfg.dataBytesMax → exec .absorb2 s = .next { s with corrupted := true }) ∧
      (3 ≤ s.cfg.dataBytesMax → exec .absorb3 s = .next { s with corrupted := true }) ∧
      (4 ≤ s.cfg.dataBytesMax → exec .absorb4 s = .next { s with corrupted := true }))

/-- R9, R74: the parameter `DATA_BYTES_MAX` is 4 by default. That an ABSORB of more bytes than it is refused `RESERVED_NB`, before
any other test, is the model's choice (log 16); with the default no row is. -/
def Obligations.AbsorbAboveDataBytesMaxIsRefused : Prop :=
  defaultConfig.dataBytesMax = 4 ∧
  ∀ (s : State), ∀ nb ∈ [1, 2, 3, 4],
    (s.cfg.dataBytesMax < nb ↔ exec (absorbRow nb) s = .refused .reservedNb) ∧
    exec .absorb0 s ≠ .refused .reservedNb

/-- R133: the chunk loop where no count wraps. With room the bytes are copied to `BLOCK[FILL ..]`; a block they fill exactly
is compressed at once; a block they cross is filled by a first chunk, compressed, and the rest starts the next block. The
count grows by eight bits a byte, and nothing else changes. `FILL < 64` is the invariant of StepKeepsContextInvariant. -/
def Obligations.AbsorbCopiesCompressesCounts : Prop :=
  ∀ (s : State), ∀ nb ∈ [1, 2, 3, 4],
    nb ≤ s.cfg.dataBytesMax → s.Open → s.writtenData = true → s.fill < 64 → s.len + 8 * nb < 2 ^ 64 →
    ∃ t, exec (absorbRow nb) s = .next t ∧
      t = { s with block := t.block, fill := t.fill, h := t.h, lenLo := t.lenLo, lenHi := t.lenHi } ∧
      t.len = s.len + 8 * nb ∧
      (s.fill + nb < 64 →
        t.fill = s.fill + nb ∧ t.h = s.h ∧
        ∀ j : Fin 64, t.block[j] =
          if s.fill ≤ j.val ∧ j.val < s.fill + nb then wordByte s.data (j.val - s.fill) else s.block[j]) ∧
      (s.fill + nb = 64 →
        t.fill = 0 ∧
        t.h = compressWords s.cfg s.h (s.block.toList.take s.fill ++ absorbBytes s.data nb) ∧
        ∀ j : Fin 64, t.block[j] =
          if s.fill ≤ j.val then wordByte s.data (j.val - s.fill) else s.block[j]) ∧
      (64 < s.fill + nb →
        t.fill = s.fill + nb - 64 ∧
        t.h = compressWords s.cfg s.h
          (s.block.toList.take s.fill ++ (absorbBytes s.data nb).take (64 - s.fill)) ∧
        ∀ j : Fin 64, t.block[j] =
          if j.val < s.fill + nb - 64 then wordByte s.data (64 - s.fill + j.val)
          else if s.fill ≤ j.val then wordByte s.data (j.val - s.fill) else s.block[j])

/-- R134: a count that reaches 2^64 sets `CORRUPTED`, and `LEN` holds the wrapped value. If the first chunk wraps, the bytes
after it are not copied: the chunk stays in `BLOCK` and has been compressed if it filled the block. If only the second
wraps, both chunks are copied. -/
def Obligations.AbsorbWrapCorruptsAndStops : Prop :=
  ∀ (s : State), ∀ nb ∈ [1, 2, 3, 4],
    nb ≤ s.cfg.dataBytesMax → s.Open → s.writtenData = true → s.fill < 64 → 2 ^ 64 ≤ s.len + 8 * nb →
    ∃ t, exec (absorbRow nb) s = .next t ∧
      t = { s with block := t.block, fill := t.fill, h := t.h, lenLo := t.lenLo, lenHi := t.lenHi,
                   corrupted := true } ∧
      (∀ k, k = min nb (64 - s.fill) → 2 ^ 64 ≤ s.len + 8 * k →
        t.len = s.len + 8 * k - 2 ^ 64 ∧
        (∀ j : Fin 64, t.block[j] =
          if s.fill ≤ j.val ∧ j.val < s.fill + k then wordByte s.data (j.val - s.fill) else s.block[j]) ∧
        (s.fill + k < 64 → t.fill = s.fill + k ∧ t.h = s.h) ∧
        (s.fill + k = 64 → t.fill = 0 ∧
          t.h = compressWords s.cfg s.h (s.block.toList.take s.fill ++ (absorbBytes s.data nb).take k))) ∧
      (∀ k, k = min nb (64 - s.fill) → s.len + 8 * k < 2 ^ 64 →
        t.len = s.len + 8 * nb - 2 ^ 64 ∧
        t.fill = s.fill + nb - 64 ∧
        t.h = compressWords s.cfg s.h (s.block.toList.take s.fill ++ (absorbBytes s.data nb).take k))

/-- R158: `Count(k)` as arithmetic on the 64-bit count, for the chunks the engine counts. -/
def Obligations.CountAddsEightBitsPerByte : Prop :=
  ∀ (s : State), ∀ k ∈ [1, 2, 3, 4],
    (s.count k).len = (s.len + 8 * k) % 2 ^ 64 ∧
    (wraps k s = true ↔ 2 ^ 64 ≤ s.len + 8 * k) ∧
    s.count k = { s with lenLo := (s.count k).lenLo, lenHi := (s.count k).lenHi }

/-! ### FINALIZE -/

/-- R135, R136, R155, R156, R157: the first FINALIZE of an uncorrupted context. One padding block when the fill index after the
0x80 byte does not exceed `PAD_LIMIT`, else two; the length field is the count, which does not advance; `H` goes to `DOUT`.
`FILL < 64` is the invariant of StepKeepsContextInvariant, and legal parameters are what step asks of every state. -/
def Obligations.FinalizePadsAndCopiesDigest : Prop :=
  ∀ s : State, s.Open → s.fill < 64 → paramsOk s.cfg = true →
    ∃ t, exec .finalize s = .next t ∧ exec (.wrCmd 0x00000003) s = .next t ∧
      t = { s with block := t.block, fill := 0, h := t.h, computed := true, dout := t.h,
                   writtenDout := Vector.replicate 5 true } ∧
      (s.fill + 1 ≤ s.cfg.padLimit →
        t.h = compressWords s.cfg s.h
          (s.block.toList.take s.fill ++ [0x80] ++ List.replicate (55 - s.fill) 0 ++
            (bytesBe32 s.lenHi ++ bytesBe32 s.lenLo))) ∧
      (s.cfg.padLimit < s.fill + 1 →
        t.h = compressWords s.cfg
          (compressWords s.cfg s.h
            (s.block.toList.take s.fill ++ [0x80] ++ List.replicate (63 - s.fill) 0))
          (List.replicate 56 0 ++ (bytesBe32 s.lenHi ++ bytesBe32 s.lenLo)))

/-- R137: FINALIZE on a corrupted context changes nothing, whether `COMPUTED` is 0 or 1. -/
def Obligations.FinalizeOnCorruptedIsNoOp : Prop :=
  ∀ s : State, s.init = true → s.corrupted = true →
    exec .finalize s = .next s ∧ exec (.wrCmd 0x00000003) s = .next s

/-- R138: FINALIZE on a computed, uncorrupted context runs only the output copy. -/
def Obligations.FinalizeOnComputedCopiesAgain : Prop :=
  ∀ s : State, s.init = true → s.corrupted = false → s.computed = true →
    exec .finalize s =
      .next { s with dout := s.h, writtenDout := Vector.replicate 5 true }

/-- 41_commands.md section 4, finalize idempotence: a second FINALIZE gives the same state, also after an `ABSORB 0`; after an
ABSORB of bytes it writes nothing, so `DOUT` still holds the digest. -/
def Obligations.FinalizeTwiceGivesSameDigest : Prop :=
  ∀ s t : State, exec .finalize s = .next t → s.init = true → s.corrupted = false →
    exec .finalize t = .next t ∧
    exec .absorb0 t = .next t ∧
    ∀ nb ∈ [1, 2, 3, 4], nb ≤ t.cfg.dataBytesMax → ∃ u, exec (absorbRow nb) t = .next u ∧ u.dout = t.dout ∧
      exec .finalize u = .next u

/-! ### The flags over all instructions -/

/-- R143: on a corrupted context every command but RESET changes nothing at all. -/
def Obligations.CorruptionIsSticky : Prop :=
  ∀ (s : State), s.init = true → s.corrupted = true →
    ∀ (i : Instr) (c : Cmd), commandOf i = some c → c ≠ .reset → cmdBytes c ≤ s.cfg.dataBytesMax →
      exec i s = .next s

/-- 41_commands.md section 4: once `COMPUTED` is set, `H` and `COMPUTED` change only by RESET. -/
def Obligations.DigestFrozenUntilReset : Prop :=
  ∀ (i : Instr) (s t : State), s.computed = true → exec i s = .next t →
    commandOf i ≠ some .reset → t.h = s.h ∧ t.computed = true

/-- R171, R27: an uncorrupted context becomes corrupted exactly by an ABSORB of bytes, no fault being recorded, that finds
`COMPUTED` set or whose count reaches 2^64; a corrupted one becomes uncorrupted exactly by RESET. `FILL < 64` is the invariant. -/
def Obligations.CorruptionCauses : Prop :=
  ∀ (i : Instr) (s t : State), s.fill < 64 → exec i s = .next t →
    (s.corrupted = false →
      (t.corrupted = true ↔
        ∃ nb ∈ [1, 2, 3, 4], commandOf i = some (absorbCmd nb) ∧ s.init = true ∧
          (s.computed = true ∨ (s.writtenData = true ∧ 2 ^ 64 ≤ s.len + 8 * nb)))) ∧
    (s.corrupted = true → (t.corrupted = false ↔ commandOf i = some .reset))

/-- R26: `COMPUTED` is set only by FINALIZE on a created, uncorrupted context and cleared only by RESET. -/
def Obligations.ComputedSetByFinalizeOnly : Prop :=
  ∀ (i : Instr) (s t : State), exec i s = .next t →
    (t.computed = true ↔
      (s.computed = true ∧ commandOf i ≠ some .reset) ∨
      (commandOf i = some .finalize ∧ s.init = true ∧ s.corrupted = false))

/-! ### Compression -/

/-- R150, R152, R153: `Compress()` reads the block as sixteen big-endian words, runs one round per word in order from `H`, adds
the working words to `H`, leaves `FILL = 0`, and touches nothing else. -/
def Obligations.CompressFoldsBlockIntoState : Prop :=
  ∀ (s : State) (x : Work),
    x = (List.ofFn fun t : Fin 16 =>
          be32 s.block[4 * t.val] s.block[4 * t.val + 1] s.block[4 * t.val + 2] s.block[4 * t.val + 3]).foldl
        (mdeRound s.cfg) ⟨s.h[0], s.h[1], s.h[2], s.h[3], s.h[4]⟩ →
    s.compress =
      { s with h := #v[s.h[0] + x.a, s.h[1] + x.b, s.h[2] + x.c, s.h[3] + x.d, s.h[4] + x.e], fill := 0 }

/-- R151, R154: the round with the standard library's rotation, for legal amounts, and the default amounts and constant. -/
def Obligations.RoundMatchesFormula : Prop :=
  defaultConfig.rot = { rIn := 5, rTop := 5, rB := 25, rC := 15, rD := 30, rE := 10 } ∧
  defaultConfig.kround = 0 ∧
  ∀ (cfg : Config) (A B C D E w : Word), paramsOk cfg = true →
    mdeRound cfg ⟨A, B, C, D, E⟩ w =
      { a := (A.rotateLeft cfg.rot.rIn + ((B &&& C) ||| (~~~B &&& D)) + E + w + cfg.kround).rotateLeft
              cfg.rot.rTop
        b := A.rotateLeft cfg.rot.rB
        c := B.rotateLeft cfg.rot.rC
        d := C.rotateLeft cfg.rot.rD
        e := D.rotateLeft cfg.rot.rE }

/-- 95_test_vectors.md section 2.6: the last three words of a block do not reach `H3` and `H4` in one compression. -/
def Obligations.LastWordsMissTwoStateWords : Prop :=
  ∀ (cfg : Config) (h : Vector Word 5) (m x y : List Byte),
    m.length = 52 → x.length = 12 → y.length = 12 →
    (compressWords cfg h (m ++ x))[3] = (compressWords cfg h (m ++ y))[3] ∧
    (compressWords cfg h (m ++ x))[4] = (compressWords cfg h (m ++ y))[4]

/-! ### Encoding

The words of the opcode table give the value of a write no place: that it stands in bits 47..16, and is 0 in a word of fewer
bits, is the model's choice (log 8), on which every clause about a 48-bit word, or a write's 16-bit word, rests. -/

/-- R80: decoding an encoded well-formed instruction gives it back, by the table's words and by the access a host makes; a CMD
row travels as the word of a write to `CMD`. Where a table word holds the value of a write is the model's choice (log 8). -/
def Obligations.EncodedInstructionDecodesBack : Prop :=
  ∀ i : Instr, i.wellFormed = true →
    decodeTableWord (encode i).nbits (encode i).word = some i ∧
    (decodeAccess i.access = .ok i ∨
      ∃ v c, decodeAccess i.access = .ok (.wrCmd v) ∧ decodeCmd v = .ok c ∧ c.instr = i)

/-- R80, read the other way: a 16-bit pattern, a 48-bit write and a 32-bit CMD word each spell at most one instruction, and it
encodes to that word. Where a table word holds the value of a write is the model's choice (log 8). -/
def Obligations.EachWordSpellsOneInstruction : Prop :=
  (∀ w i, w < 2 ^ 32 → decodeTableWord 32 w = some i → encode i = ⟨32, w⟩) ∧
  (∀ w i, w < 2 ^ 16 → decodeTableWord 16 w = some i → (encode i).word = w) ∧
  (∀ w i, w < 2 ^ 48 → 2 ^ 16 ≤ w → decodeTableWord 48 w = some i →
    (encode i).word = w ∨ ((encode i).nbits = 16 ∧ (encode i).word = w % 2 ^ 16))

/-- R74: the decoding of a CMD word, for all 2^32 words: the seven admitted words, the three refused `RESERVED_NB`, and every
other refused `RESERVED_CMD`. -/
def Obligations.ExactlySevenCommandWords : Prop :=
  ∀ v : Word, decodeCmd v =
    if v = 0x00000001 then .ok .reset
    else if v = 0x00000002 then .ok .absorb0
    else if v = 0x00000012 then .ok .absorb1
    else if v = 0x00000022 then .ok .absorb2
    else if v = 0x00000032 then .ok .absorb3
    else if v = 0x00000042 then .ok .absorb4
    else if v = 0x00000003 then .ok .finalize
    else if v = 0x00000052 ∨ v = 0x00000062 ∨ v = 0x00000072 then .error .reservedNb
    else .error .reservedCmd

/-- R74, R76: a write to `CMD` is well formed exactly when its word decodes. -/
def Obligations.WellFormedWriteIsAdmittedWord : Prop :=
  ∀ v : Word, (Instr.wrCmd v).wellFormed = true ↔ ∃ c, decodeCmd v = .ok c

/-- R123, R54, R121, R122: the checks of an access, in their order, and what passes them. -/
def Obligations.AccessCheckOrder : Prop :=
  ∀ a : Access,
    (a.size ≠ 4 → decodeAccess a = .error .accessWidth) ∧
    (a.size = 4 → a.off.toNat % 4 ≠ 0 → decodeAccess a = .error .misaligned) ∧
    (a.size = 4 → a.off.toNat % 4 = 0 → 0x3C ≤ a.off.toNat →
      decodeAccess a = .error .reservedOffset) ∧
    (a.size = 4 → a.off.toNat = 0x00 → a.dir = .read → decodeAccess a = .error .readOfWriteOnly) ∧
    (a.size = 4 → a.off.toNat % 4 = 0 → 0x08 ≤ a.off.toNat → a.off.toNat ≤ 0x24 → a.dir = .write →
      decodeAccess a = .error .writeOfReadOnly) ∧
    (a.size = 4 → a.off.toNat % 4 = 0 → a.off.toNat < 0x3C →
      (a.dir = .read → 0x04 ≤ a.off.toNat) →
      (a.dir = .write → a.off.toNat < 0x08 ∨ 0x24 < a.off.toNat) →
      ∃ i, decodeAccess a = .ok i ∧ i.access.off = a.off ∧ i.access.dir = a.dir ∧
        (a.dir = .write → i.access.val = a.val))

/-- R80: one word of each kind of row, written out. The patterns are R80's; that a write's value stands in bits 47..16, and is 0
where the word has no such bits (the clauses of `wrDout0` and `wrData`), is the model's choice (log 8). -/
def Obligations.SampleWordsDecode : Prop :=
  decodeTableWord 16 0b100000100 = some (.wrData 0) ∧
  decodeTableWord 16 0b000001000 = some .rdStatus ∧
  decodeTableWord 16 0b000111000 = some .rdDout4 ∧
  decodeTableWord 48 0xA5A5A5A50128 = some (.wrDout0 0xA5A5A5A5) ∧
  decodeTableWord 32 0x00000001 = some .reset ∧
  decodeTableWord 32 0x00000032 = some .absorb3 ∧
  decodeTableWord 32 0x00000003 = some .finalize

/-! ### The step -/

/-- R5, R55, R100, R123: an access next in the order of receipt that decodes is one step: exec of what it spells, on the state
without it. -/
def Obligations.StepRunsDecodedAccess : Prop :=
  ∀ (s : State) (a : Access) (rest : List HostEvent) (i : Instr),
    paramsOk s.cfg = true → s.pending = .access a :: rest → decodeAccess a = .ok i →
    step s = exec i { s with pending := rest }

/-- R54, R121, R122, R123, R172: an access the spec gives no meaning ends the step in the refusal of its name. -/
def Obligations.StepRefusesReservedAccess : Prop :=
  ∀ (s : State) (a : Access) (rest : List HostEvent),
    paramsOk s.cfg = true → s.pending = .access a :: rest →
    (a.size ≠ 4 → step s = .refused .accessWidth) ∧
    (a.size = 4 → a.off.toNat % 4 ≠ 0 → step s = .refused .misaligned) ∧
    (a.size = 4 → a.off.toNat % 4 = 0 → 0x3C ≤ a.off.toNat → step s = .refused .reservedOffset) ∧
    (a.size = 4 → a.off.toNat = 0x00 → a.dir = .read → step s = .refused .readOfWriteOnly) ∧
    (a.size = 4 → a.off.toNat % 4 = 0 → 0x08 ≤ a.off.toNat → a.off.toNat ≤ 0x24 → a.dir = .write →
      step s = .refused .writeOfReadOnly)

/-- R100, R31: a write to `CMD` performs the command its word spells and keeps nothing of the word; a reserved word is
refused by name. -/
def Obligations.WriteCommandPerformsIt : Prop :=
  ∀ (s : State) (v : Word),
    decodeAccess ⟨.write, 0x00, 4, v⟩ = .ok (.wrCmd v) ∧
    decodeAccess ⟨.read, 0x00, 4, v⟩ = .error .readOfWriteOnly ∧
    (∀ c, decodeCmd v = .ok c → exec (.wrCmd v) s = exec c.instr s) ∧
    (decodeCmd v = .error .reservedCmd → exec (.wrCmd v) s = .refused .reservedCmd) ∧
    (decodeCmd v = .error .reservedNb → exec (.wrCmd v) s = .refused .reservedNb)

/-- R6: an engine that has received nothing does nothing. -/
def Obligations.IdleEngineKeepsItsState : Prop :=
  ∀ s : State, paramsOk s.cfg = true → s.pending = [] → step s = .next s

/-- R190: the reset line gives the power-on state, where the marks are 0 and every access that would read an undefined register
records a fault. That the line keeps the parameters, the events still pending, the values already returned and the recorded
faults is the model's choice (log 10), and so are the zeros that State.reset holds in the registers to which R190 gives no value
(log 1). -/
def Obligations.ResetLineGivesPowerOn : Prop :=
  ∀ (s : State) (rest : List HostEvent), paramsOk s.cfg = true → s.pending = .resetLine :: rest →
    ∃ t, step s = .next t ∧
      t = { State.reset with cfg := s.cfg, pending := rest, returned := s.returned, faults := s.faults } ∧
      t.init = false ∧ t.writtenData = false ∧ t.writtenDout = Vector.replicate 5 false ∧
      (∀ i ∈ contextReadRows ++ [.absorb0, .finalize],
        exec i t = .next { t with faults := s.faults ++ [.uninitContext] }) ∧
      (∀ nb ∈ [1, 2, 3, 4], nb ≤ s.cfg.dataBytesMax →
        exec (absorbRow nb) t = .next { t with faults := s.faults ++ [.uninitContext] }) ∧
      (∀ i ∈ [Instr.rdData, .rdDout0, .rdDout1, .rdDout2, .rdDout3, .rdDout4],
        exec i t = .next { t with faults := s.faults ++ [.unwrittenRegister] })

/-- R156, R172 `BAD_PARAMETER`: a model instantiated with `PAD_LIMIT` outside 55, 56 or an amount outside 0..31 is refused.
That every step refuses, before it looks at the access, is the model's choice (log 7). -/
def Obligations.BadParametersAreRefused : Prop :=
  ∀ s : State,
    ((s.cfg.padLimit ≠ 55 ∧ s.cfg.padLimit ≠ 56) ∨
      32 ≤ s.cfg.rot.rIn ∨ 32 ≤ s.cfg.rot.rTop ∨ 32 ≤ s.cfg.rot.rB ∨
      32 ≤ s.cfg.rot.rC ∨ 32 ≤ s.cfg.rot.rD ∨ 32 ≤ s.cfg.rot.rE) ↔
    step s = .refused .badParameter

/-- R172, R173, R191, D29: a recorded fault is never cleared, by no step of any kind and over no number of events, and neither is
a recorded refusal; an access that recorded a fault, or was refused, changed nothing else of the engine. That the reset line keeps the
recorded faults is the model's choice (log 10), and so is the form of the two records (log 3). -/
def Obligations.RecordedFaultsAreNeverCleared : Prop :=
  (∀ s t : State, step s = .next t →
    t.faults = s.faults ∨
    ∃ f, t = { s with pending := s.pending.tail, faults := s.faults ++ [f] }) ∧
  ∀ (r : RunRecord) (n : Nat),
    r.state.faults <+: (RunRecord.step^[n] r).state.faults ∧
    r.refusals <+: (RunRecord.step^[n] r).refusals ∧
    (r.step.refusals ≠ r.refusals → r.step.state = { r.state with pending := r.state.pending.tail })

/-! ### Invariants of every step -/

/-- 10_state.md section 2: what holds between any two accesses is kept by every step, from every state. The clause that no flag is
set before the first RESET, and the whole invariant after a step of the reset line, rest on the zeros of State.reset, the model's
choice (log 1), since R190 gives these registers no value; that the line keeps the parameters is log 10's. -/
def Obligations.StepKeepsContextInvariant : Prop :=
  ∀ s t : State, s.Inv → step s = .next t → t.Inv

/-- The power-on state meets the invariant. Its register values are the model's choice (log 1). -/
def Obligations.PowerOnMeetsContextInvariant : Prop := State.reset.Inv

/-- 10_state.md R39's inference: stale bytes of `BLOCK` never influence what a host observes. Two states that differ only in
bytes at or beyond `FILL` step alike: both go on, to states that again differ only there (so the values returned and the faults
recorded are the same), or both are refused for the same reason. No step stops with a fault: the type of such reasons is empty.
That a step of the reset line gives both the same `BLOCK` rests on the zeros of State.reset (log 1, log 10). -/
def Obligations.StaleBlockBytesNeverMatter : Prop :=
  ∀ s s' : State, s.Inv → s.SameButStale s' →
    (∀ t, step s = .next t → ∃ t', step s' = .next t' ∧ t.SameButStale t') ∧
    (∀ r, step s = .refused r → step s' = .refused r)

/-! ### Whole messages -/

/-- 41_commands.md section 4, chunking: an ABSORB of `nb` bytes is its bytes absorbed one at a time, while no count wraps. -/
def Obligations.AbsorbEqualsByteAtATime : Prop :=
  ∀ (s : State), ∀ nb ∈ [1, 2, 3, 4],
    nb ≤ s.cfg.dataBytesMax → s.Open → s.writtenData = true → s.fill < 64 → s.len + 8 * nb < 2 ^ 64 →
    exec (absorbRow nb) s = .next (s.absorbString (absorbBytes s.data nb))

/-- 41_commands.md section 4, chunking invariance: however a string is split into chunks of at most four bytes, the accesses
that carry it leave the context that depends on the string alone. `DATA` holds the last chunk. The queue the accesses
stand in is the model's form (log 4), their list log 17's. -/
def Obligations.SplittingDoesNotMatter : Prop :=
  ∀ (s : State) (chunks : List (List Byte)),
    paramsOk s.cfg = true → s.Open → s.fill < 64 →
    (∀ c ∈ chunks, c.length ≤ 4 ∧ c.length ≤ s.cfg.dataBytesMax) → s.len + 8 * chunks.flatten.length < 2 ^ 64 →
    s.pending = eventsOf (chunks.flatMap absorbChunk) →
    ∃ t, Sys2Proof.core.run (chunks.flatMap absorbChunk).length s = .next t ∧
      t = { s.absorbString chunks.flatten with
              data := t.data, writtenData := t.writtenData, pending := [] } ∧
      t.len = s.len + 8 * chunks.flatten.length

/-- 30_encoding.md R79, 42_compress_pad.md section 4: the pseudo-instructions `CMD.RESET`, `ABSORBBUF m`, `DIGEST`, from any
state, return STATUS 1 and the digest of the message padded as one string, and record no fault. The queue they stand in is the
model's form (log 4), their list and the padded string log 17's. -/
def Obligations.HashProgramReturnsDigest : Prop :=
  ∀ (s : State) (m : List Byte),
    paramsOk s.cfg = true → 4 ≤ s.cfg.dataBytesMax → 8 * m.length < 2 ^ 64 →
    s.pending = eventsOf (hashProgram m) →
    ∃ t, Sys2Proof.core.run (hashProgram m).length s = .next t ∧
      t.returned = s.returned ++ 0x00000001 :: (digestOf s.cfg m).toList ∧
      t.dout = digestOf s.cfg m ∧ t.h = digestOf s.cfg m ∧
      t.len = 8 * m.length ∧ t.pending = [] ∧ t.faults = s.faults

/-- 70_reset_and_hazards.md section 2: R193's host, who reads the digest only if `STATUS[1] = 0`, gets STATUS 1 and the digest,
from any state. That its accesses go before what is pending, which stays, is the model's choice (log 18); the host as a program
is log 17's. -/
def Obligations.OneHashReturnsDigest : Prop :=
  ∀ (s : State) (m : List Byte),
    paramsOk s.cfg = true → 4 ≤ s.cfg.dataBytesMax → 8 * m.length < 2 ^ 64 →
    ∃ t, oneHash m s = .next t ∧
      t.returned = s.returned ++ 0x00000001 :: (digestOf s.cfg m).toList ∧
      t.dout = digestOf s.cfg m ∧ t.pending = s.pending ∧ t.faults = s.faults

/-- 70_reset_and_hazards.md R193, R196: for a message whose bit count reaches 2^64, R193's host reads STATUS with `STATUS[1] = 1`
and `STATUS[0] = 0` and nothing after it, and `DOUT` is what it was. That the host's accesses go before what the instance has
pending is the model's choice (log 18); the host as a program is log 17's. -/
def Obligations.OneHashOfTooLongMessageReadsNoDigest : Prop :=
  ∀ (s : State) (m : List Byte),
    paramsOk s.cfg = true → 4 ≤ s.cfg.dataBytesMax → 2 ^ 64 ≤ 8 * m.length →
    ∃ t, oneHash m s = .next t ∧
      (∃ v : Word, t.returned = s.returned ++ [v] ∧ v.getLsbD 1 = true ∧ v.getLsbD 0 = false) ∧
      t.dout = s.dout ∧ t.writtenDout = s.writtenDout ∧ t.corrupted = true ∧ t.faults = s.faults

/-- 42_compress_pad.md section 4: the padded message is a whole number of blocks and ends in the message's bit length. -/
def Obligations.PaddedMessageIsWholeBlocks : Prop :=
  ∀ (padLimit : Nat) (m : List Byte), padLimit = 55 ∨ padLimit = 56 → 8 * m.length < 2 ^ 64 →
    (padMessage padLimit m).length % 64 = 0 ∧
    (padMessage padLimit m).length / 64 = m.length / 64 + (if padLimit ≤ m.length % 64 then 2 else 1) ∧
    m ++ [0x80] <+: padMessage padLimit m ∧
    ((padMessage padLimit m).drop ((padMessage padLimit m).length - 8)).foldl
      (fun n b => n * 256 + b.toNat) 0 = 8 * m.length

/-! ### Several instances -/

/-- 20_memory.md section 1: with the bases R51 and I16 allow, every address of a window reaches its instance, at its offset, and
an address at or beyond the parameter `REG_WINDOW` (R9) does not. That a `REG_WINDOW` above 256 acts as 256 is the model's
choice (log 16), and the form of a system is log 13's. -/
def Obligations.WindowAddressReachesItsInstance : Prop :=
  ∀ (sys : System) (k base off : Nat) (a : HostAccess),
    defaultRegWindow = 256 ∧
    (sys.basesOk = true → sys.bases[k]? = some base → off < 256 → a.addr = base + off →
    (sys.route a.addr = some k ↔ off < sys.regWindow) ∧ (a.atBase base).off.toNat = off ∧
    (a.atBase base).dir = a.dir ∧ (a.atBase base).size = a.size ∧ (a.atBase base).val = a.val)

/-- 60_exceptions.md section 4: an agent's access is performed by the instance whose window it reaches, and changes no other
instance and no other agent. The form of a system is the model's (log 13), and so is that the access goes before what the
instance has pending (log 18). -/
def Obligations.AccessTouchesOneInstance : Prop :=
  ∀ (sys sys' : System) (j : Nat) (ag : Agent) (a : HostAccess) (rest : List HostAccess),
    sys.agents[j]? = some ag → ag.program = a :: rest → sys.step j = .next sys' →
    sys'.bases = sys.bases ∧ sys'.regWindow = sys.regWindow ∧
    (∀ i, i ≠ j → sys'.agents[i]? = sys.agents[i]?) ∧
    (∀ k, sys.route a.addr ≠ some k → sys'.engines[k]? = sys.engines[k]?) ∧
    (∀ k e base, sys.route a.addr = some k → sys.engines[k]? = some e → sys.bases[k]? = some base →
      ∃ e', step { e with pending := .access (a.atBase base) :: e.pending } = .next e' ∧
        sys'.engines[k]? = some e')

/-- 70_reset_and_hazards.md R190, 60_exceptions.md R182, R184: the reset line of an instance, or a loss of its power, gives that
instance the power-on state and changes nothing else of the system. That the line reaches one instance alone, and comes before
what the instance has pending, is the model's choice (log 19); what the line keeps is log 10's, and the
zeros that State.reset holds in `BLOCK`, `FILL`, `H`, `LEN`, the flags, `DATA` and `DOUT`, to which R190 gives no value, are the
model's choice too (log 1). -/
def Obligations.ResetLineTouchesOneInstance : Prop :=
  ∀ (sys : System) (k : Nat) (e : State), sys.engines[k]? = some e → paramsOk e.cfg = true →
    sys.perform (.resetLine k) =
      .next { sys with
        engines := sys.engines.set k
          { State.reset with
            cfg := e.cfg, pending := e.pending, returned := e.returned, faults := e.faults } }

/-- 20_memory.md section 4: accesses to different instances commute, so no order between instances can be observed.
The form of a system is the model's (log 13), and so is that an access goes before what its instance has pending (log 18). -/
def Obligations.AccessesToDifferentInstancesCommute : Prop :=
  ∀ (sys s1 s12 : System) (i j k l : Nat) (agi agj : Agent) (a b : HostAccess) (ra rb : List HostAccess),
    i ≠ j → k ≠ l →
    sys.agents[i]? = some agi → agi.program = a :: ra → sys.route a.addr = some k →
    sys.agents[j]? = some agj → agj.program = b :: rb → sys.route b.addr = some l →
    sys.step i = .next s1 → s1.step j = .next s12 →
    ∃ s2, sys.step j = .next s2 ∧ s2.step i = .next s12
end

