-- ==== Sys2Proof/Laws/State.lean ====
section
/-! SUPPORT. Laws of State: for each named update of the state, what it leaves in each field. -/

namespace Sys2Proof.Machine

/-! ### State.answer -/

@[simp] theorem State.answer_block (v : Word) (s : State) :
    (s.answer v).block = s.block := rfl
@[simp] theorem State.answer_fill (v : Word) (s : State) :
    (s.answer v).fill = s.fill := rfl
@[simp] theorem State.answer_h (v : Word) (s : State) :
    (s.answer v).h = s.h := rfl
@[simp] theorem State.answer_lenLo (v : Word) (s : State) :
    (s.answer v).lenLo = s.lenLo := rfl
@[simp] theorem State.answer_lenHi (v : Word) (s : State) :
    (s.answer v).lenHi = s.lenHi := rfl
@[simp] theorem State.answer_computed (v : Word) (s : State) :
    (s.answer v).computed = s.computed := rfl
@[simp] theorem State.answer_corrupted (v : Word) (s : State) :
    (s.answer v).corrupted = s.corrupted := rfl
@[simp] theorem State.answer_data (v : Word) (s : State) :
    (s.answer v).data = s.data := rfl
@[simp] theorem State.answer_dout (v : Word) (s : State) :
    (s.answer v).dout = s.dout := rfl
@[simp] theorem State.answer_init (v : Word) (s : State) :
    (s.answer v).init = s.init := rfl
@[simp] theorem State.answer_writtenData (v : Word) (s : State) :
    (s.answer v).writtenData = s.writtenData := rfl
@[simp] theorem State.answer_writtenDout (v : Word) (s : State) :
    (s.answer v).writtenDout = s.writtenDout := rfl
@[simp] theorem State.answer_faults (v : Word) (s : State) :
    (s.answer v).faults = s.faults := rfl
@[simp] theorem State.answer_cfg (v : Word) (s : State) :
    (s.answer v).cfg = s.cfg := rfl
@[simp] theorem State.answer_pending (v : Word) (s : State) :
    (s.answer v).pending = s.pending := rfl
@[simp] theorem State.answer_returned (v : Word) (s : State) :
    (s.answer v).returned = s.returned ++ [v] := rfl

/-! ### State.recordFault -/

@[simp] theorem State.recordFault_block (r : FaultReason) (s : State) :
    (s.recordFault r).block = s.block := rfl
@[simp] theorem State.recordFault_fill (r : FaultReason) (s : State) :
    (s.recordFault r).fill = s.fill := rfl
@[simp] theorem State.recordFault_h (r : FaultReason) (s : State) :
    (s.recordFault r).h = s.h := rfl
@[simp] theorem State.recordFault_lenLo (r : FaultReason) (s : State) :
    (s.recordFault r).lenLo = s.lenLo := rfl
@[simp] theorem State.recordFault_lenHi (r : FaultReason) (s : State) :
    (s.recordFault r).lenHi = s.lenHi := rfl
@[simp] theorem State.recordFault_computed (r : FaultReason) (s : State) :
    (s.recordFault r).computed = s.computed := rfl
@[simp] theorem State.recordFault_corrupted (r : FaultReason) (s : State) :
    (s.recordFault r).corrupted = s.corrupted := rfl
@[simp] theorem State.recordFault_data (r : FaultReason) (s : State) :
    (s.recordFault r).data = s.data := rfl
@[simp] theorem State.recordFault_dout (r : FaultReason) (s : State) :
    (s.recordFault r).dout = s.dout := rfl
@[simp] theorem State.recordFault_init (r : FaultReason) (s : State) :
    (s.recordFault r).init = s.init := rfl
@[simp] theorem State.recordFault_writtenData (r : FaultReason) (s : State) :
    (s.recordFault r).writtenData = s.writtenData := rfl
@[simp] theorem State.recordFault_writtenDout (r : FaultReason) (s : State) :
    (s.recordFault r).writtenDout = s.writtenDout := rfl
@[simp] theorem State.recordFault_faults (r : FaultReason) (s : State) :
    (s.recordFault r).faults = s.faults ++ [r] := rfl
@[simp] theorem State.recordFault_cfg (r : FaultReason) (s : State) :
    (s.recordFault r).cfg = s.cfg := rfl
@[simp] theorem State.recordFault_pending (r : FaultReason) (s : State) :
    (s.recordFault r).pending = s.pending := rfl
@[simp] theorem State.recordFault_returned (r : FaultReason) (s : State) :
    (s.recordFault r).returned = s.returned := rfl

/-! ### State.loadData -/

@[simp] theorem State.loadData_block (v : Word) (s : State) :
    (s.loadData v).block = s.block := rfl
@[simp] theorem State.loadData_fill (v : Word) (s : State) :
    (s.loadData v).fill = s.fill := rfl
@[simp] theorem State.loadData_h (v : Word) (s : State) :
    (s.loadData v).h = s.h := rfl
@[simp] theorem State.loadData_lenLo (v : Word) (s : State) :
    (s.loadData v).lenLo = s.lenLo := rfl
@[simp] theorem State.loadData_lenHi (v : Word) (s : State) :
    (s.loadData v).lenHi = s.lenHi := rfl
@[simp] theorem State.loadData_computed (v : Word) (s : State) :
    (s.loadData v).computed = s.computed := rfl
@[simp] theorem State.loadData_corrupted (v : Word) (s : State) :
    (s.loadData v).corrupted = s.corrupted := rfl
@[simp] theorem State.loadData_data (v : Word) (s : State) :
    (s.loadData v).data = v := rfl
@[simp] theorem State.loadData_dout (v : Word) (s : State) :
    (s.loadData v).dout = s.dout := rfl
@[simp] theorem State.loadData_init (v : Word) (s : State) :
    (s.loadData v).init = s.init := rfl
@[simp] theorem State.loadData_writtenData (v : Word) (s : State) :
    (s.loadData v).writtenData = true := rfl
@[simp] theorem State.loadData_writtenDout (v : Word) (s : State) :
    (s.loadData v).writtenDout = s.writtenDout := rfl
@[simp] theorem State.loadData_faults (v : Word) (s : State) :
    (s.loadData v).faults = s.faults := rfl
@[simp] theorem State.loadData_cfg (v : Word) (s : State) :
    (s.loadData v).cfg = s.cfg := rfl
@[simp] theorem State.loadData_pending (v : Word) (s : State) :
    (s.loadData v).pending = s.pending := rfl
@[simp] theorem State.loadData_returned (v : Word) (s : State) :
    (s.loadData v).returned = s.returned := rfl

/-! ### State.loadDout -/

@[simp] theorem State.loadDout_block (i : Fin 5) (v : Word) (s : State) :
    (s.loadDout i v).block = s.block := rfl
@[simp] theorem State.loadDout_fill (i : Fin 5) (v : Word) (s : State) :
    (s.loadDout i v).fill = s.fill := rfl
@[simp] theorem State.loadDout_h (i : Fin 5) (v : Word) (s : State) :
    (s.loadDout i v).h = s.h := rfl
@[simp] theorem State.loadDout_lenLo (i : Fin 5) (v : Word) (s : State) :
    (s.loadDout i v).lenLo = s.lenLo := rfl
@[simp] theorem State.loadDout_lenHi (i : Fin 5) (v : Word) (s : State) :
    (s.loadDout i v).lenHi = s.lenHi := rfl
@[simp] theorem State.loadDout_computed (i : Fin 5) (v : Word) (s : State) :
    (s.loadDout i v).computed = s.computed := rfl
@[simp] theorem State.loadDout_corrupted (i : Fin 5) (v : Word) (s : State) :
    (s.loadDout i v).corrupted = s.corrupted := rfl
@[simp] theorem State.loadDout_data (i : Fin 5) (v : Word) (s : State) :
    (s.loadDout i v).data = s.data := rfl
@[simp] theorem State.loadDout_dout (i : Fin 5) (v : Word) (s : State) :
    (s.loadDout i v).dout = s.dout.set i v := rfl
@[simp] theorem State.loadDout_init (i : Fin 5) (v : Word) (s : State) :
    (s.loadDout i v).init = s.init := rfl
@[simp] theorem State.loadDout_writtenData (i : Fin 5) (v : Word) (s : State) :
    (s.loadDout i v).writtenData = s.writtenData := rfl
@[simp] theorem State.loadDout_writtenDout (i : Fin 5) (v : Word) (s : State) :
    (s.loadDout i v).writtenDout = s.writtenDout.set i true := rfl
@[simp] theorem State.loadDout_faults (i : Fin 5) (v : Word) (s : State) :
    (s.loadDout i v).faults = s.faults := rfl
@[simp] theorem State.loadDout_cfg (i : Fin 5) (v : Word) (s : State) :
    (s.loadDout i v).cfg = s.cfg := rfl
@[simp] theorem State.loadDout_pending (i : Fin 5) (v : Word) (s : State) :
    (s.loadDout i v).pending = s.pending := rfl
@[simp] theorem State.loadDout_returned (i : Fin 5) (v : Word) (s : State) :
    (s.loadDout i v).returned = s.returned := rfl

/-! ### State.corrupt -/

@[simp] theorem State.corrupt_block (s : State) :
    (s.corrupt).block = s.block := rfl
@[simp] theorem State.corrupt_fill (s : State) :
    (s.corrupt).fill = s.fill := rfl
@[simp] theorem State.corrupt_h (s : State) :
    (s.corrupt).h = s.h := rfl
@[simp] theorem State.corrupt_lenLo (s : State) :
    (s.corrupt).lenLo = s.lenLo := rfl
@[simp] theorem State.corrupt_lenHi (s : State) :
    (s.corrupt).lenHi = s.lenHi := rfl
@[simp] theorem State.corrupt_computed (s : State) :
    (s.corrupt).computed = s.computed := rfl
@[simp] theorem State.corrupt_corrupted (s : State) :
    (s.corrupt).corrupted = true := rfl
@[simp] theorem State.corrupt_data (s : State) :
    (s.corrupt).data = s.data := rfl
@[simp] theorem State.corrupt_dout (s : State) :
    (s.corrupt).dout = s.dout := rfl
@[simp] theorem State.corrupt_init (s : State) :
    (s.corrupt).init = s.init := rfl
@[simp] theorem State.corrupt_writtenData (s : State) :
    (s.corrupt).writtenData = s.writtenData := rfl
@[simp] theorem State.corrupt_writtenDout (s : State) :
    (s.corrupt).writtenDout = s.writtenDout := rfl
@[simp] theorem State.corrupt_faults (s : State) :
    (s.corrupt).faults = s.faults := rfl
@[simp] theorem State.corrupt_cfg (s : State) :
    (s.corrupt).cfg = s.cfg := rfl
@[simp] theorem State.corrupt_pending (s : State) :
    (s.corrupt).pending = s.pending := rfl
@[simp] theorem State.corrupt_returned (s : State) :
    (s.corrupt).returned = s.returned := rfl

/-! ### State.popEvent -/

@[simp] theorem State.popEvent_block (rest : List HostEvent) (s : State) :
    (s.popEvent rest).block = s.block := rfl
@[simp] theorem State.popEvent_fill (rest : List HostEvent) (s : State) :
    (s.popEvent rest).fill = s.fill := rfl
@[simp] theorem State.popEvent_h (rest : List HostEvent) (s : State) :
    (s.popEvent rest).h = s.h := rfl
@[simp] theorem State.popEvent_lenLo (rest : List HostEvent) (s : State) :
    (s.popEvent rest).lenLo = s.lenLo := rfl
@[simp] theorem State.popEvent_lenHi (rest : List HostEvent) (s : State) :
    (s.popEvent rest).lenHi = s.lenHi := rfl
@[simp] theorem State.popEvent_computed (rest : List HostEvent) (s : State) :
    (s.popEvent rest).computed = s.computed := rfl
@[simp] theorem State.popEvent_corrupted (rest : List HostEvent) (s : State) :
    (s.popEvent rest).corrupted = s.corrupted := rfl
@[simp] theorem State.popEvent_data (rest : List HostEvent) (s : State) :
    (s.popEvent rest).data = s.data := rfl
@[simp] theorem State.popEvent_dout (rest : List HostEvent) (s : State) :
    (s.popEvent rest).dout = s.dout := rfl
@[simp] theorem State.popEvent_init (rest : List HostEvent) (s : State) :
    (s.popEvent rest).init = s.init := rfl
@[simp] theorem State.popEvent_writtenData (rest : List HostEvent) (s : State) :
    (s.popEvent rest).writtenData = s.writtenData := rfl
@[simp] theorem State.popEvent_writtenDout (rest : List HostEvent) (s : State) :
    (s.popEvent rest).writtenDout = s.writtenDout := rfl
@[simp] theorem State.popEvent_faults (rest : List HostEvent) (s : State) :
    (s.popEvent rest).faults = s.faults := rfl
@[simp] theorem State.popEvent_cfg (rest : List HostEvent) (s : State) :
    (s.popEvent rest).cfg = s.cfg := rfl
@[simp] theorem State.popEvent_pending (rest : List HostEvent) (s : State) :
    (s.popEvent rest).pending = rest := rfl
@[simp] theorem State.popEvent_returned (rest : List HostEvent) (s : State) :
    (s.popEvent rest).returned = s.returned := rfl

/-! ### State.pushEvent -/

@[simp] theorem State.pushEvent_block (e : HostEvent) (s : State) :
    (s.pushEvent e).block = s.block := rfl
@[simp] theorem State.pushEvent_fill (e : HostEvent) (s : State) :
    (s.pushEvent e).fill = s.fill := rfl
@[simp] theorem State.pushEvent_h (e : HostEvent) (s : State) :
    (s.pushEvent e).h = s.h := rfl
@[simp] theorem State.pushEvent_lenLo (e : HostEvent) (s : State) :
    (s.pushEvent e).lenLo = s.lenLo := rfl
@[simp] theorem State.pushEvent_lenHi (e : HostEvent) (s : State) :
    (s.pushEvent e).lenHi = s.lenHi := rfl
@[simp] theorem State.pushEvent_computed (e : HostEvent) (s : State) :
    (s.pushEvent e).computed = s.computed := rfl
@[simp] theorem State.pushEvent_corrupted (e : HostEvent) (s : State) :
    (s.pushEvent e).corrupted = s.corrupted := rfl
@[simp] theorem State.pushEvent_data (e : HostEvent) (s : State) :
    (s.pushEvent e).data = s.data := rfl
@[simp] theorem State.pushEvent_dout (e : HostEvent) (s : State) :
    (s.pushEvent e).dout = s.dout := rfl
@[simp] theorem State.pushEvent_init (e : HostEvent) (s : State) :
    (s.pushEvent e).init = s.init := rfl
@[simp] theorem State.pushEvent_writtenData (e : HostEvent) (s : State) :
    (s.pushEvent e).writtenData = s.writtenData := rfl
@[simp] theorem State.pushEvent_writtenDout (e : HostEvent) (s : State) :
    (s.pushEvent e).writtenDout = s.writtenDout := rfl
@[simp] theorem State.pushEvent_faults (e : HostEvent) (s : State) :
    (s.pushEvent e).faults = s.faults := rfl
@[simp] theorem State.pushEvent_cfg (e : HostEvent) (s : State) :
    (s.pushEvent e).cfg = s.cfg := rfl
@[simp] theorem State.pushEvent_pending (e : HostEvent) (s : State) :
    (s.pushEvent e).pending = e :: s.pending := rfl
@[simp] theorem State.pushEvent_returned (e : HostEvent) (s : State) :
    (s.pushEvent e).returned = s.returned := rfl

/-! ### State.createContext -/

@[simp] theorem State.createContext_block (s : State) :
    (s.createContext).block = s.block := rfl
@[simp] theorem State.createContext_fill (s : State) :
    (s.createContext).fill = 0 := rfl
@[simp] theorem State.createContext_h (s : State) :
    (s.createContext).h = s.cfg.iv := rfl
@[simp] theorem State.createContext_lenLo (s : State) :
    (s.createContext).lenLo = 0 := rfl
@[simp] theorem State.createContext_lenHi (s : State) :
    (s.createContext).lenHi = 0 := rfl
@[simp] theorem State.createContext_computed (s : State) :
    (s.createContext).computed = false := rfl
@[simp] theorem State.createContext_corrupted (s : State) :
    (s.createContext).corrupted = false := rfl
@[simp] theorem State.createContext_data (s : State) :
    (s.createContext).data = s.data := rfl
@[simp] theorem State.createContext_dout (s : State) :
    (s.createContext).dout = s.dout := rfl
@[simp] theorem State.createContext_init (s : State) :
    (s.createContext).init = true := rfl
@[simp] theorem State.createContext_writtenData (s : State) :
    (s.createContext).writtenData = s.writtenData := rfl
@[simp] theorem State.createContext_writtenDout (s : State) :
    (s.createContext).writtenDout = s.writtenDout := rfl
@[simp] theorem State.createContext_faults (s : State) :
    (s.createContext).faults = s.faults := rfl
@[simp] theorem State.createContext_cfg (s : State) :
    (s.createContext).cfg = s.cfg := rfl
@[simp] theorem State.createContext_pending (s : State) :
    (s.createContext).pending = s.pending := rfl
@[simp] theorem State.createContext_returned (s : State) :
    (s.createContext).returned = s.returned := rfl

/-! ### State.copyOut -/

@[simp] theorem State.copyOut_block (s : State) :
    (s.copyOut).block = s.block := rfl
@[simp] theorem State.copyOut_fill (s : State) :
    (s.copyOut).fill = s.fill := rfl
@[simp] theorem State.copyOut_h (s : State) :
    (s.copyOut).h = s.h := rfl
@[simp] theorem State.copyOut_lenLo (s : State) :
    (s.copyOut).lenLo = s.lenLo := rfl
@[simp] theorem State.copyOut_lenHi (s : State) :
    (s.copyOut).lenHi = s.lenHi := rfl
@[simp] theorem State.copyOut_computed (s : State) :
    (s.copyOut).computed = s.computed := rfl
@[simp] theorem State.copyOut_corrupted (s : State) :
    (s.copyOut).corrupted = s.corrupted := rfl
@[simp] theorem State.copyOut_data (s : State) :
    (s.copyOut).data = s.data := rfl
@[simp] theorem State.copyOut_dout (s : State) :
    (s.copyOut).dout = s.h := rfl
@[simp] theorem State.copyOut_init (s : State) :
    (s.copyOut).init = s.init := rfl
@[simp] theorem State.copyOut_writtenData (s : State) :
    (s.copyOut).writtenData = s.writtenData := rfl
@[simp] theorem State.copyOut_writtenDout (s : State) :
    (s.copyOut).writtenDout = Vector.replicate 5 true := rfl
@[simp] theorem State.copyOut_faults (s : State) :
    (s.copyOut).faults = s.faults := rfl
@[simp] theorem State.copyOut_cfg (s : State) :
    (s.copyOut).cfg = s.cfg := rfl
@[simp] theorem State.copyOut_pending (s : State) :
    (s.copyOut).pending = s.pending := rfl
@[simp] theorem State.copyOut_returned (s : State) :
    (s.copyOut).returned = s.returned := rfl

/-! ### State.put -/

@[simp] theorem State.put_block (bytes : List Byte) (s : State) :
    (s.put bytes).block = blockPut s.block s.fill bytes := rfl
@[simp] theorem State.put_fill (bytes : List Byte) (s : State) :
    (s.put bytes).fill = s.fill + bytes.length := rfl
@[simp] theorem State.put_h (bytes : List Byte) (s : State) :
    (s.put bytes).h = s.h := rfl
@[simp] theorem State.put_lenLo (bytes : List Byte) (s : State) :
    (s.put bytes).lenLo = s.lenLo := rfl
@[simp] theorem State.put_lenHi (bytes : List Byte) (s : State) :
    (s.put bytes).lenHi = s.lenHi := rfl
@[simp] theorem State.put_computed (bytes : List Byte) (s : State) :
    (s.put bytes).computed = s.computed := rfl
@[simp] theorem State.put_corrupted (bytes : List Byte) (s : State) :
    (s.put bytes).corrupted = s.corrupted := rfl
@[simp] theorem State.put_data (bytes : List Byte) (s : State) :
    (s.put bytes).data = s.data := rfl
@[simp] theorem State.put_dout (bytes : List Byte) (s : State) :
    (s.put bytes).dout = s.dout := rfl
@[simp] theorem State.put_init (bytes : List Byte) (s : State) :
    (s.put bytes).init = s.init := rfl
@[simp] theorem State.put_writtenData (bytes : List Byte) (s : State) :
    (s.put bytes).writtenData = s.writtenData := rfl
@[simp] theorem State.put_writtenDout (bytes : List Byte) (s : State) :
    (s.put bytes).writtenDout = s.writtenDout := rfl
@[simp] theorem State.put_faults (bytes : List Byte) (s : State) :
    (s.put bytes).faults = s.faults := rfl
@[simp] theorem State.put_cfg (bytes : List Byte) (s : State) :
    (s.put bytes).cfg = s.cfg := rfl
@[simp] theorem State.put_pending (bytes : List Byte) (s : State) :
    (s.put bytes).pending = s.pending := rfl
@[simp] theorem State.put_returned (bytes : List Byte) (s : State) :
    (s.put bytes).returned = s.returned := rfl

/-! ### State.putLen -/

@[simp] theorem State.putLen_block (s : State) :
    (s.putLen).block = blockPut s.block 56 (lenBytes s) := rfl
@[simp] theorem State.putLen_fill (s : State) :
    (s.putLen).fill = s.fill := rfl
@[simp] theorem State.putLen_h (s : State) :
    (s.putLen).h = s.h := rfl
@[simp] theorem State.putLen_lenLo (s : State) :
    (s.putLen).lenLo = s.lenLo := rfl
@[simp] theorem State.putLen_lenHi (s : State) :
    (s.putLen).lenHi = s.lenHi := rfl
@[simp] theorem State.putLen_computed (s : State) :
    (s.putLen).computed = s.computed := rfl
@[simp] theorem State.putLen_corrupted (s : State) :
    (s.putLen).corrupted = s.corrupted := rfl
@[simp] theorem State.putLen_data (s : State) :
    (s.putLen).data = s.data := rfl
@[simp] theorem State.putLen_dout (s : State) :
    (s.putLen).dout = s.dout := rfl
@[simp] theorem State.putLen_init (s : State) :
    (s.putLen).init = s.init := rfl
@[simp] theorem State.putLen_writtenData (s : State) :
    (s.putLen).writtenData = s.writtenData := rfl
@[simp] theorem State.putLen_writtenDout (s : State) :
    (s.putLen).writtenDout = s.writtenDout := rfl
@[simp] theorem State.putLen_faults (s : State) :
    (s.putLen).faults = s.faults := rfl
@[simp] theorem State.putLen_cfg (s : State) :
    (s.putLen).cfg = s.cfg := rfl
@[simp] theorem State.putLen_pending (s : State) :
    (s.putLen).pending = s.pending := rfl
@[simp] theorem State.putLen_returned (s : State) :
    (s.putLen).returned = s.returned := rfl

/-! ### State.compress -/

@[simp] theorem State.compress_block (s : State) :
    (s.compress).block = s.block := rfl
@[simp] theorem State.compress_fill (s : State) :
    (s.compress).fill = 0 := rfl
@[simp] theorem State.compress_h (s : State) :
    (s.compress).h = compressWords s.cfg s.h s.block.toList := rfl
@[simp] theorem State.compress_lenLo (s : State) :
    (s.compress).lenLo = s.lenLo := rfl
@[simp] theorem State.compress_lenHi (s : State) :
    (s.compress).lenHi = s.lenHi := rfl
@[simp] theorem State.compress_computed (s : State) :
    (s.compress).computed = s.computed := rfl
@[simp] theorem State.compress_corrupted (s : State) :
    (s.compress).corrupted = s.corrupted := rfl
@[simp] theorem State.compress_data (s : State) :
    (s.compress).data = s.data := rfl
@[simp] theorem State.compress_dout (s : State) :
    (s.compress).dout = s.dout := rfl
@[simp] theorem State.compress_init (s : State) :
    (s.compress).init = s.init := rfl
@[simp] theorem State.compress_writtenData (s : State) :
    (s.compress).writtenData = s.writtenData := rfl
@[simp] theorem State.compress_writtenDout (s : State) :
    (s.compress).writtenDout = s.writtenDout := rfl
@[simp] theorem State.compress_faults (s : State) :
    (s.compress).faults = s.faults := rfl
@[simp] theorem State.compress_cfg (s : State) :
    (s.compress).cfg = s.cfg := rfl
@[simp] theorem State.compress_pending (s : State) :
    (s.compress).pending = s.pending := rfl
@[simp] theorem State.compress_returned (s : State) :
    (s.compress).returned = s.returned := rfl

/-! ### State.count -/

@[simp] theorem State.count_block (k : Nat) (s : State) :
    (s.count k).block = s.block := rfl
@[simp] theorem State.count_fill (k : Nat) (s : State) :
    (s.count k).fill = s.fill := rfl
@[simp] theorem State.count_h (k : Nat) (s : State) :
    (s.count k).h = s.h := rfl
@[simp] theorem State.count_lenLo (k : Nat) (s : State) :
    (s.count k).lenLo = BitVec.ofNat 32 (countSum k s) := rfl
@[simp] theorem State.count_lenHi (k : Nat) (s : State) :
    (s.count k).lenHi = if carries k s then s.lenHi + 1 else s.lenHi := rfl
@[simp] theorem State.count_computed (k : Nat) (s : State) :
    (s.count k).computed = s.computed := rfl
@[simp] theorem State.count_corrupted (k : Nat) (s : State) :
    (s.count k).corrupted = s.corrupted := rfl
@[simp] theorem State.count_data (k : Nat) (s : State) :
    (s.count k).data = s.data := rfl
@[simp] theorem State.count_dout (k : Nat) (s : State) :
    (s.count k).dout = s.dout := rfl
@[simp] theorem State.count_init (k : Nat) (s : State) :
    (s.count k).init = s.init := rfl
@[simp] theorem State.count_writtenData (k : Nat) (s : State) :
    (s.count k).writtenData = s.writtenData := rfl
@[simp] theorem State.count_writtenDout (k : Nat) (s : State) :
    (s.count k).writtenDout = s.writtenDout := rfl
@[simp] theorem State.count_faults (k : Nat) (s : State) :
    (s.count k).faults = s.faults := rfl
@[simp] theorem State.count_cfg (k : Nat) (s : State) :
    (s.count k).cfg = s.cfg := rfl
@[simp] theorem State.count_pending (k : Nat) (s : State) :
    (s.count k).pending = s.pending := rfl
@[simp] theorem State.count_returned (k : Nat) (s : State) :
    (s.count k).returned = s.returned := rfl

/-! ### State.powerOn -/

@[simp] theorem State.powerOn_block (s : State) :
    (s.powerOn).block = Vector.replicate 64 0 := rfl
@[simp] theorem State.powerOn_fill (s : State) :
    (s.powerOn).fill = 0 := rfl
@[simp] theorem State.powerOn_h (s : State) :
    (s.powerOn).h = Vector.replicate 5 0 := rfl
@[simp] theorem State.powerOn_lenLo (s : State) :
    (s.powerOn).lenLo = 0 := rfl
@[simp] theorem State.powerOn_lenHi (s : State) :
    (s.powerOn).lenHi = 0 := rfl
@[simp] theorem State.powerOn_computed (s : State) :
    (s.powerOn).computed = false := rfl
@[simp] theorem State.powerOn_corrupted (s : State) :
    (s.powerOn).corrupted = false := rfl
@[simp] theorem State.powerOn_data (s : State) :
    (s.powerOn).data = 0 := rfl
@[simp] theorem State.powerOn_dout (s : State) :
    (s.powerOn).dout = Vector.replicate 5 0 := rfl
@[simp] theorem State.powerOn_init (s : State) :
    (s.powerOn).init = false := rfl
@[simp] theorem State.powerOn_writtenData (s : State) :
    (s.powerOn).writtenData = false := rfl
@[simp] theorem State.powerOn_writtenDout (s : State) :
    (s.powerOn).writtenDout = Vector.replicate 5 false := rfl
@[simp] theorem State.powerOn_faults (s : State) :
    (s.powerOn).faults = s.faults := rfl
@[simp] theorem State.powerOn_cfg (s : State) :
    (s.powerOn).cfg = s.cfg := rfl
@[simp] theorem State.powerOn_pending (s : State) :
    (s.powerOn).pending = s.pending := rfl
@[simp] theorem State.powerOn_returned (s : State) :
    (s.powerOn).returned = s.returned := rfl

end Sys2Proof.Machine
end

