-- ==== Sys2Proof/Laws/Compress.lean ====
section
/-! SUPPORT. Laws of the internal operations (Machine/Compress.lean): what writing bytes into BLOCK leaves where, what the bit
counter does as a 64-bit number, and one lemma per chunk of the chunk loop. -/

namespace Sys2Proof.Machine

/-! ### Writing BLOCK -/

theorem blockPut_append (b : Vector Byte 64) (n : Nat) (xs ys : List Byte) :
    blockPut b n (xs ++ ys) = blockPut (blockPut b n xs) (n + xs.length) ys := by
  induction xs generalizing b n with
  | nil => simp [blockPut]
  | cons x xs ih =>
    simp only [List.cons_append, blockPut, ih, List.length_cons]
    rw [show n + 1 + xs.length = n + (xs.length + 1) by omega]

/-- The bytes written stand at their positions, and every other position keeps its byte. -/
theorem blockPut_getElem (b : Vector Byte 64) (n : Nat) (bs : List Byte) (j : Nat) (hj : j < 64) :
    (blockPut b n bs)[j] = if n ≤ j then bs.getD (j - n) b[j] else b[j] := by
  induction bs generalizing b n with
  | nil => simp [blockPut]
  | cons x xs ih =>
    rw [blockPut, ih, Vector.getElem_setIfInBounds]
    rcases Nat.lt_trichotomy n j with h | h | h
    · obtain ⟨d, rfl⟩ : ∃ d, j = n + 1 + d := ⟨j - (n + 1), by omega⟩
      simp [show n ≤ n + 1 + d by omega, show n ≠ n + 1 + d by omega,
        show n + 1 + d - n = d + 1 by omega]
    · subst h; simp
    · simp [show ¬ n + 1 ≤ j by omega, show ¬ n ≤ j by omega, show n ≠ j by omega]

/-- The block's bytes after a write that stays inside it. -/
theorem blockPut_toList (b : Vector Byte 64) (n : Nat) (bs : List Byte) (h : n + bs.length ≤ 64) :
    (blockPut b n bs).toList = b.toList.take n ++ bs ++ b.toList.drop (n + bs.length) := by
  apply List.ext_getElem
  · simp; omega
  · intro j h1 h2
    have hj : j < 64 := by simpa using h1
    rw [Vector.getElem_toList, blockPut_getElem _ _ _ _ hj]
    simp only [List.getElem_append, List.length_append, List.length_take, Vector.length_toList, List.getElem_take,
      List.getElem_drop, Vector.getElem_toList]
    by_cases h3 : n ≤ j
    · by_cases h4 : j - n < bs.length
      · rw [if_pos h3, dif_pos (by omega), dif_neg (by omega), List.getD_eq_getElem _ _ h4]
        congr 1; omega
      · rw [if_pos h3, dif_neg (by omega), List.getD_eq_default _ _ (by omega)]
        congr 1; omega
    · rw [if_neg h3, dif_pos (by omega), dif_pos (by omega)]

/-- Two writes of consecutive bytes are one. -/
theorem State.put_put (xs ys : List Byte) (s : State) :
    (s.put xs).put ys = s.put (xs ++ ys) := by
  simp [State.put, blockPut_append, Nat.add_assoc]

/-! ### The schedule -/

theorem schedule_length (bs : List Byte) : (schedule bs).length = bs.length / 4 := by
  induction bs using schedule.induct with
  | case1 b0 b1 b2 b3 rest ih => simp [schedule, ih]; omega
  | case2 bs h =>
    match bs, h with
    | [], _ => rfl
    | [_], _ => simp [schedule]
    | [_, _], _ => simp [schedule]
    | [_, _, _], _ => simp [schedule]
    | a :: b :: c :: d :: rest, h => exact absurd rfl (h a b c d rest)

/-- Word `t` of the schedule is the big-endian word of bytes `4t .. 4t+3` (R150). -/
theorem schedule_getElem? (bs : List Byte) (t : Nat) (h : 4 * t + 3 < bs.length) :
    (schedule bs)[t]? = some (be32 bs[4 * t] bs[4 * t + 1] bs[4 * t + 2] bs[4 * t + 3]) := by
  induction t generalizing bs with
  | zero =>
    match bs, h with
    | a :: b :: c :: d :: rest, _ => rfl
  | succ t ih =>
    match bs, h with
    | a :: b :: c :: d :: rest, h =>
      have h' : 4 * t + 3 < rest.length := by simp at h; omega
      simpa [schedule, Nat.mul_add] using ih rest h'

/-! ### The bit counter -/

theorem State.len_lt (s : State) : s.len < 2 ^ 64 := by
  have := s.lenLo.isLt; have := s.lenHi.isLt
  unfold State.len; omega

theorem carries_iff (k : Nat) (s : State) : carries k s = true ↔ 2 ^ 32 ≤ s.lenLo.toNat + 8 * k :=
  decide_eq_true_iff

/-- The high half after adding one, as a number. -/
theorem word_add_one_toNat (w : Word) : (w + 1).toNat = (w.toNat + 1) % 2 ^ 32 := by
  rw [BitVec.toNat_add, show (1 : Word).toNat = 1 from rfl]

/-- `Count(k)` adds `8·k` to the 64-bit count, modulo 2^64 (R158). -/
theorem State.count_len (k : Nat) (s : State) (hk : 8 * k < 2 ^ 32) :
    (s.count k).len = (s.len + 8 * k) % 2 ^ 64 := by
  have h1 := s.lenLo.isLt
  have h2 := s.lenHi.isLt
  have h3 := carries_iff k s
  simp only [State.len, State.count_lenLo, State.count_lenHi, countSum, BitVec.toNat_ofNat]
  by_cases hc : carries k s = true
  · rw [if_pos hc, word_add_one_toNat]
    have := h3.mp hc
    omega
  · rw [if_neg hc]
    have := mt h3.mpr hc
    omega

/-- `WRAPPED` means that the count reached 2^64 (R158). -/
theorem wraps_iff (k : Nat) (s : State) (hk : 8 * k < 2 ^ 32) :
    wraps k s = true ↔ 2 ^ 64 ≤ s.len + 8 * k := by
  have h1 := s.lenLo.isLt
  have h2 := s.lenHi.isLt
  rw [wraps, Bool.and_eq_true, carries_iff, beq_iff_eq, ← BitVec.toNat_inj, word_add_one_toNat,
    show (0 : Word).toNat = 0 from rfl, State.len]
  omega

theorem wraps_eq_false_iff (k : Nat) (s : State) (hk : 8 * k < 2 ^ 32) :
    wraps k s = false ↔ s.len + 8 * k < 2 ^ 64 := by
  rw [← Bool.not_eq_true, wraps_iff k s hk]; omega

/-! ### Chunks -/

/-- A chunk never touches the count, the flags, DATA, DOUT, the marks, the parameters or the queues. -/
theorem State.chunk_frame (bs : List Byte) (s : State) :
    s.chunk bs = { s with block := (s.chunk bs).block, fill := (s.chunk bs).fill, h := (s.chunk bs).h } := by
  unfold State.chunk; dsimp only; split <;> rfl

@[simp] theorem State.chunk_block (bs : List Byte) (s : State) :
    (s.chunk bs).block = blockPut s.block s.fill bs := by
  unfold State.chunk; dsimp only; split <;> rfl

@[simp] theorem State.chunk_cfg (bs : List Byte) (s : State) : (s.chunk bs).cfg = s.cfg := by
  rw [State.chunk_frame]

@[simp] theorem State.chunk_lenLo (bs : List Byte) (s : State) : (s.chunk bs).lenLo = s.lenLo := by
  rw [State.chunk_frame]

@[simp] theorem State.chunk_lenHi (bs : List Byte) (s : State) : (s.chunk bs).lenHi = s.lenHi := by
  rw [State.chunk_frame]

@[simp] theorem State.chunk_len (bs : List Byte) (s : State) : (s.chunk bs).len = s.len := by
  simp [State.len]

theorem State.chunk_of_full (bs : List Byte) (s : State) (h : s.fill + bs.length = 64) :
    s.chunk bs = (s.put bs).compress := by
  simp [State.chunk, h]

theorem State.chunk_of_room (bs : List Byte) (s : State) (h : s.fill + bs.length ≠ 64) :
    s.chunk bs = s.put bs := by
  simp [State.chunk, h]

/-- Between chunks the fill index is below 64 (R28). -/
theorem State.chunk_fill_lt (bs : List Byte) (s : State) (h : s.fill + bs.length ≤ 64) :
    (s.chunk bs).fill < 64 := by
  unfold State.chunk; dsimp only
  split
  · simp
  · simp at *; omega

/-- Whether a count wraps depends on LEN alone. -/
theorem wraps_congr {k : Nat} {s t : State} (h : s.len = t.len) (hk : 8 * k < 2 ^ 32) :
    wraps k s = wraps k t := by
  rw [Bool.eq_iff_iff, wraps_iff k s hk, wraps_iff k t hk, h]

@[simp] theorem State.corrupt_len (s : State) : s.corrupt.len = s.len := rfl

/-- Filling the block exactly and compressing it. -/
theorem State.compress_put (s : State) (bs : List Byte) (h : s.fill + bs.length = 64) :
    (s.put bs).compress =
      { s with block := blockPut s.block s.fill bs, fill := 0,
               h := compressWords s.cfg s.h (s.block.toList.take s.fill ++ bs) } := by
  have e : (blockPut s.block s.fill bs).toList = s.block.toList.take s.fill ++ bs := by
    rw [blockPut_toList _ _ _ (by omega), h, List.drop_of_length_le (by simp), List.append_nil]
  simp only [State.put, State.compress, e]

/-- The chunk loop when the bytes fit in the block: one chunk, counted. -/
theorem absorbLoop_one (fuel : Nat) (bs : List Byte) (s : State) (hne : bs ≠ [])
    (hfit : s.fill + bs.length ≤ 64) (hw : wraps bs.length (s.chunk bs) = false) :
    absorbLoop (fuel + 1) bs s = (s.chunk bs).count bs.length := by
  match bs, hne with
  | d :: ds, _ =>
    have hk : chunkLen (d :: ds) s = (d :: ds).length := by
      simp only [chunkLen]; omega
    rw [absorbLoop]
    simp only [hk, List.take_length, List.drop_length, hw, Bool.false_eq_true, if_false]
    cases fuel <;> rfl

/-- The chunk loop when its first chunk wraps the counter: the rest is not copied. -/
theorem absorbLoop_wrap (fuel : Nat) (bs : List Byte) (s : State) (hne : bs ≠ [])
    (hw : wraps (chunkLen bs s) (s.chunk (bs.take (chunkLen bs s))) = true) :
    absorbLoop (fuel + 1) bs s = ((s.chunk (bs.take (chunkLen bs s))).count (chunkLen bs s)).corrupt := by
  match bs, hne with
  | d :: ds, _ =>
    rw [absorbLoop]
    simp only [hw, if_true]

/-- The chunk loop when its first chunk does not wrap. -/
theorem absorbLoop_next (fuel : Nat) (bs : List Byte) (s : State) (hne : bs ≠ [])
    (hw : wraps (chunkLen bs s) (s.chunk (bs.take (chunkLen bs s))) = false) :
    absorbLoop (fuel + 1) bs s =
      absorbLoop fuel (bs.drop (chunkLen bs s)) ((s.chunk (bs.take (chunkLen bs s))).count (chunkLen bs s)) := by
  match bs, hne with
  | d :: ds, _ =>
    rw [absorbLoop]
    simp only [hw, Bool.false_eq_true, if_false]

/-- The state between two chunks: the first `64 - FILL` bytes have filled the block, which is compressed and counted. -/
def State.crossed (bs : List Byte) (s : State) : State :=
  State.count (64 - s.fill)
    { s with block := blockPut s.block s.fill (bs.take (64 - s.fill)), fill := 0,
             h := compressWords s.cfg s.h (s.block.toList.take s.fill ++ bs.take (64 - s.fill)) }

theorem State.crossed_len (bs : List Byte) (s : State) (h : s.len + 8 * (64 - s.fill) < 2 ^ 64) :
    (s.crossed bs).len = s.len + 8 * (64 - s.fill) := by
  rw [State.crossed, State.count_len _ _ (by omega)]
  exact Nat.mod_eq_of_lt h

@[simp] theorem State.crossed_fill (bs : List Byte) (s : State) : (s.crossed bs).fill = 0 := rfl

/-- The chunk loop when the bytes cross the end of the block and no more than one block's end: the second chunk. -/
theorem absorbLoop_cross (fuel : Nat) (bs : List Byte) (s : State) (hlt : s.fill < 64)
    (hcross : 64 < s.fill + bs.length) (hw : s.len + 8 * (64 - s.fill) < 2 ^ 64) :
    absorbLoop (fuel + 1) bs s = absorbLoop fuel (bs.drop (64 - s.fill)) (s.crossed bs) := by
  have hk : chunkLen bs s = 64 - s.fill := by simp only [chunkLen]; omega
  have hne : bs ≠ [] := by rintro rfl; simp at hcross; omega
  have hwr : wraps (64 - s.fill) (s.chunk (bs.take (64 - s.fill))) = false := by
    rw [wraps_eq_false_iff _ _ (by omega), State.chunk_len]; exact hw
  rw [absorbLoop_next _ _ _ hne (by rw [hk]; exact hwr), hk,
    State.chunk_of_full _ _ (by rw [List.length_take]; omega),
    State.compress_put _ _ (by rw [List.length_take]; omega)]
  rfl

/-- The bytes of an ABSORB. -/
theorem absorbBytes_length (d : Word) {nb : Nat} (h : nb ≤ 4) : (absorbBytes d nb).length = nb := by
  simp [absorbBytes, bytesBe32]; omega

theorem absorbBytes_getD (d : Word) {nb j : Nat} (h : nb ≤ 4) (hj : j < nb) (x : Byte) :
    (absorbBytes d nb).getD j x = wordByte d j := by
  have hj4 : j < 4 := by omega
  simp only [absorbBytes, List.getD_eq_getElem?_getD, List.getElem?_take, if_pos hj]
  match j, hj4 with
  | 0, _ => rfl
  | 1, _ => rfl
  | 2, _ => rfl
  | 3, _ => rfl

/-- A block with the bytes of an ABSORB written from `n` on, byte by byte. -/
theorem blockPut_absorbBytes (b : Vector Byte 64) (n : Nat) (d : Word) {nb : Nat} (h : nb ≤ 4) (j : Nat)
    (hj : j < 64) :
    (blockPut b n (absorbBytes d nb))[j] = if n ≤ j ∧ j < n + nb then wordByte d (j - n) else b[j] := by
  rw [blockPut_getElem]
  by_cases h1 : n ≤ j
  · by_cases h2 : j < n + nb
    · rw [if_pos h1, if_pos ⟨h1, h2⟩, absorbBytes_getD _ h (by omega)]
    · rw [if_pos h1, if_neg (by omega), List.getD_eq_default _ _ (by rw [absorbBytes_length _ h]; omega)]
  · rw [if_neg h1, if_neg (by omega)]

theorem absorbBytes_take (d : Word) {nb k : Nat} (h : k ≤ nb) : (absorbBytes d nb).take k = absorbBytes d k := by
  simp only [absorbBytes, List.take_take]; congr 1; omega

/-! ### The padding -/

/-- `H` after a padding of one block (R155, R157). -/
theorem State.pad_h_of_room (s : State) (hf : s.fill < 64) (hpl : s.cfg.padLimit ≤ 56)
    (hle : s.fill + 1 ≤ s.cfg.padLimit) :
    s.pad.h = compressWords s.cfg s.h
      (s.block.toList.take s.fill ++ [0x80] ++ List.replicate (55 - s.fill) 0 ++
        (bytesBe32 s.lenHi ++ bytesBe32 s.lenLo)) := by
  have e1 : (s.put [0x80]).padExtra = s.put [0x80] := if_neg (by simp; omega)
  have e2 : 56 - (s.fill + 1) = 55 - s.fill := by omega
  rw [State.pad, e1, State.zeroFill, State.put_put]
  simp only [State.compress_h, State.putLen_block, State.putLen_cfg, State.putLen_h, State.put_cfg, State.put_h,
    State.put_block, State.put_fill, List.length_cons, List.length_nil, e2, lenBytes, State.put_lenHi,
    State.put_lenLo, Nat.zero_add]
  congr 1
  rw [blockPut_toList _ 56 _ (by simp [bytesBe32]), blockPut_toList _ _ _ (by simp; omega)]
  have hL : (List.take s.fill s.block.toList ++ ([0x80] ++ List.replicate (55 - s.fill) 0)).length = 56 := by
    simp; omega
  rw [List.take_append_of_le_length (le_of_eq hL.symm), List.take_of_length_le (le_of_eq hL),
    List.drop_of_length_le (by simp [bytesBe32]; omega)]
  simp only [List.append_assoc, List.append_nil]

/-- `H` after a padding of two blocks (R155, R156, R157). -/
theorem State.pad_h_of_extra (s : State) (hf : s.fill < 64) (hlt : s.cfg.padLimit < s.fill + 1) :
    s.pad.h = compressWords s.cfg
      (compressWords s.cfg s.h
        (s.block.toList.take s.fill ++ [0x80] ++ List.replicate (63 - s.fill) 0))
      (List.replicate 56 0 ++ (bytesBe32 s.lenHi ++ bytesBe32 s.lenLo)) := by
  have e2 : 64 - (s.fill + 1) = 63 - s.fill := by omega
  have e1 : (s.put [0x80]).padExtra =
      { s with block := blockPut s.block s.fill ([0x80] ++ List.replicate (63 - s.fill) 0), fill := 0,
               h := compressWords s.cfg s.h
                 (s.block.toList.take s.fill ++ ([0x80] ++ List.replicate (63 - s.fill) 0)) } := by
    rw [State.padExtra, if_pos (by simp; omega), State.zeroFill, State.put_put]
    simp only [State.put_fill, List.length_cons, List.length_nil, Nat.zero_add, e2]
    rw [State.compress_put _ _ (by simp; omega)]
  rw [State.pad, e1, State.zeroFill]
  simp only [State.compress_h, State.putLen_block, State.putLen_cfg, State.putLen_h, State.put_cfg, State.put_h,
    State.put_block, lenBytes, State.put_lenHi, State.put_lenLo, Nat.sub_zero]
  rw [List.append_assoc]
  congr 1
  rw [blockPut_toList _ 56 _ (by simp [bytesBe32]), blockPut_toList _ _ _ (by simp)]
  have hL : (List.take 0 (blockPut s.block s.fill ([0x80] ++ List.replicate (63 - s.fill) 0)).toList ++
      List.replicate 56 (0 : Byte)).length = 56 := by simp
  rw [List.take_append_of_le_length (le_of_eq hL.symm), List.take_of_length_le (le_of_eq hL),
    List.drop_of_length_le (by simp [bytesBe32])]
  simp only [List.take_zero, List.nil_append, List.append_nil]

end Sys2Proof.Machine
end

