-- ==== Sys2Proof/Laws/Commands.lean ====
section
/-! SUPPORT. Laws of the commands (Machine/Commands.lean) and of exec: one inversion lemma per command (if it answers a next state,
then one of these cases holds) and the frame of each internal operation. Later proofs cite these and unfold nothing. -/

namespace Sys2Proof.Machine

/-! ### What a shared operation that answers has done -/

theorem readContext_next {view : State → Word} {s t : State} (h : readContext view s = .next t) :
    (s.init = true ∧ t = s.answer (view s)) ∨ (s.init = false ∧ t = s.recordFault .uninitContext) := by
  unfold readContext at h
  split at h <;> cases h
  · exact .inl ⟨‹_›, rfl⟩
  · exact .inr ⟨by simp_all, rfl⟩

theorem readData_next {s t : State} (h : readData s = .next t) :
    (s.writtenData = true ∧ t = s.answer s.data) ∨
    (s.writtenData = false ∧ t = s.recordFault .unwrittenRegister) := by
  unfold readData at h
  split at h <;> cases h
  · exact .inl ⟨‹_›, rfl⟩
  · exact .inr ⟨by simp_all, rfl⟩

theorem readDout_next {i : Fin 5} {s t : State} (h : readDout i s = .next t) :
    (s.writtenDout[i] = true ∧ t = s.answer s.dout[i]) ∨
    (s.writtenDout[i] = false ∧ t = s.recordFault .unwrittenRegister) := by
  unfold readDout at h
  split at h <;> cases h
  · exact .inl ⟨‹_›, rfl⟩
  · exact .inr ⟨by simp_all, rfl⟩

/-! ### Where a fault is recorded (R173) -/

theorem readContext_of_uninit {view : State → Word} {s : State} (h : s.init = false) :
    readContext view s = .next (s.recordFault .uninitContext) := by
  simp [readContext, h]

theorem readData_of_unwritten {s : State} (h : s.writtenData = false) :
    readData s = .next (s.recordFault .unwrittenRegister) := by
  simp [readData, h]

theorem readDout_of_unwritten {i : Fin 5} {s : State} (h : s.writtenDout[i] = false) :
    readDout i s = .next (s.recordFault .unwrittenRegister) := by
  rw [readDout, if_neg (by simp [h])]

theorem execFinalize_of_uninit {s : State} (h : s.init = false) :
    execFinalize s = .next (s.recordFault .uninitContext) := by
  simp [execFinalize, h]

/-! ### ABSORB and FINALIZE -/

/-- An ABSORB of no more than `DATA_BYTES_MAX` bytes goes through R131's checks. -/
theorem absorb_of_le {nb : Nat} {s : State} (hmax : nb ≤ s.cfg.dataBytesMax) :
    absorb nb s =
      if s.init = false then .next (s.recordFault .uninitContext)
      else if nb = 0 then .next s
      else if s.computed = true ∨ s.corrupted = true then .next s.corrupt
      else if s.writtenData = false then .next (s.recordFault .unwrittenRegister)
      else .next (absorbLoop nb (absorbBytes s.data nb) s) := by
  rw [absorb, if_neg (Nat.not_lt.mpr hmax)]

/-- If an ABSORB answers, its count is no more than `DATA_BYTES_MAX`. -/
theorem absorb_next_le {nb : Nat} {s t : State} (h : absorb nb s = .next t) : nb ≤ s.cfg.dataBytesMax := by
  by_contra hc
  rw [absorb, if_pos (Nat.not_le.mp hc)] at h
  cases h

/-- If an ABSORB answers, it found no context and recorded that; or it did nothing, or only set CORRUPTED, or found DATA
unwritten and recorded that, or ran the chunk loop. -/
theorem absorb_next {nb : Nat} {s t : State} (h : absorb nb s = .next t) :
    (s.init = false ∧ t = s.recordFault .uninitContext) ∨
    (s.init = true ∧
      ((nb = 0 ∧ t = s) ∨
       (nb ≠ 0 ∧ (s.computed = true ∨ s.corrupted = true) ∧ t = s.corrupt) ∨
       (nb ≠ 0 ∧ s.computed = false ∧ s.corrupted = false ∧ s.writtenData = false ∧
         t = s.recordFault .unwrittenRegister) ∨
       (nb ≠ 0 ∧ s.computed = false ∧ s.corrupted = false ∧ s.writtenData = true ∧
         t = absorbLoop nb (absorbBytes s.data nb) s))) := by
  rw [absorb_of_le (absorb_next_le h)] at h
  split at h
  · cases h; exact .inl ⟨‹_›, rfl⟩
  · refine .inr ⟨by simp_all, ?_⟩
    split at h
    · cases h; simp_all
    · split at h
      · cases h; simp_all
      · split at h <;> cases h <;> simp_all

/-- An ABSORB with no context records that, whatever its count. -/
theorem absorb_of_uninit {nb : Nat} {s : State} (h : s.init = false) (hmax : nb ≤ s.cfg.dataBytesMax) :
    absorb nb s = .next (s.recordFault .uninitContext) := by
  simp [absorb_of_le hmax, h]

/-- An ABSORB of bytes on an open context with DATA unwritten records that. -/
theorem absorb_of_unwritten {nb : Nat} {s : State} (h : s.Open) (hw : s.writtenData = false) (hnb : nb ≠ 0)
    (hmax : nb ≤ s.cfg.dataBytesMax) : absorb nb s = .next (s.recordFault .unwrittenRegister) := by
  obtain ⟨h1, h2, h3⟩ := h
  simp [absorb_of_le hmax, h1, h2, h3, hw, hnb]

/-- An ABSORB of bytes on an open context with DATA written runs the chunk loop. -/
theorem absorb_of_open {nb : Nat} {s : State} (h : s.Open) (hw : s.writtenData = true) (hnb : nb ≠ 0)
    (hmax : nb ≤ s.cfg.dataBytesMax) :
    absorb nb s = .next (absorbLoop nb (absorbBytes s.data nb) s) := by
  obtain ⟨h1, h2, h3⟩ := h
  simp [absorb_of_le hmax, h1, h2, h3, hw, hnb]

/-- FINALIZE answers: it found no context and recorded that; or it did nothing, or copied, or padded and copied. -/
theorem execFinalize_next {s t : State} (h : execFinalize s = .next t) :
    (s.init = false ∧ t = s.recordFault .uninitContext) ∨
    (s.init = true ∧
      ((s.corrupted = true ∧ t = s) ∨
       (s.corrupted = false ∧ s.computed = true ∧ t = s.copyOut) ∨
       (s.corrupted = false ∧ s.computed = false ∧ t = s.finish.copyOut))) := by
  unfold execFinalize at h
  split at h
  · cases h; exact .inl ⟨‹_›, rfl⟩
  · refine .inr ⟨by simp_all, ?_⟩
    split at h
    · cases h; simp_all
    · split at h
      · cases h; simp_all
      · cases h; simp_all

/-- If a write to `CMD` answers, its word spells a command, and that command answered. -/
theorem execWrCmd_next {v : Word} {s t : State} (h : execWrCmd v s = .next t) :
    ∃ c, decodeCmd v = .ok c ∧ performCmd c s = .next t := by
  unfold execWrCmd at h
  split at h
  · exact ⟨_, ‹_›, h⟩
  · cases h

/-- A command performed through `CMD` is the row of the command. -/
theorem performCmd_eq_exec (c : Cmd) (s : State) : performCmd c s = exec c.instr s := by
  cases c <;> rfl

theorem execWrCmd_of_ok {v : Word} {c : Cmd} (h : decodeCmd v = .ok c) (s : State) :
    exec (.wrCmd v) s = exec c.instr s := by
  rw [← performCmd_eq_exec]
  show execWrCmd v s = _
  unfold execWrCmd
  rw [h]

/-! ### Frames -/

/-- The chunk loop writes only BLOCK, FILL, H, LEN and CORRUPTED. -/
theorem absorbLoop_frame (fuel : Nat) (bs : List Byte) (s : State) :
    ∃ b f h lo hi c, absorbLoop fuel bs s =
      { s with block := b, fill := f, h := h, lenLo := lo, lenHi := hi, corrupted := c } := by
  induction fuel generalizing bs s with
  | zero => exact ⟨_, _, _, _, _, _, rfl⟩
  | succ n ih =>
    cases bs with
    | nil => exact ⟨_, _, _, _, _, _, rfl⟩
    | cons d ds =>
      simp only [absorbLoop]
      split
      · rw [State.chunk_frame]; exact ⟨_, _, _, _, _, _, rfl⟩
      · obtain ⟨b, f, h, lo, hi, c, e⟩ := ih ((d :: ds).drop (chunkLen (d :: ds) s))
          ((s.chunk ((d :: ds).take (chunkLen (d :: ds) s))).count (chunkLen (d :: ds) s))
        rw [e, State.chunk_frame]; exact ⟨_, _, _, _, _, _, rfl⟩

theorem State.put_frame (bs : List Byte) (s : State) :
    ∃ b f, s.put bs = { s with block := b, fill := f } := ⟨_, _, rfl⟩

theorem State.padExtra_frame (s : State) :
    ∃ b f h, s.padExtra = { s with block := b, fill := f, h := h } := by
  unfold State.padExtra
  split <;> exact ⟨_, _, _, rfl⟩

/-- The padding writes only BLOCK, FILL and H, and leaves FILL at 0. -/
theorem State.pad_frame (s : State) :
    ∃ b h, s.pad = { s with block := b, fill := 0, h := h } := by
  unfold State.pad State.zeroFill
  obtain ⟨b, f, e⟩ := State.put_frame [0x80] s
  rw [e]
  obtain ⟨b2, f2, h2, e2⟩ := State.padExtra_frame { s with block := b, fill := f }
  rw [e2]
  obtain ⟨b3, f3, e3⟩ := State.put_frame (List.replicate (56 - f2) 0) { s with block := b2, fill := f2, h := h2 }
  simp only at e3 ⊢
  rw [e3]
  exact ⟨_, _, rfl⟩

theorem State.finish_frame (s : State) :
    ∃ b h, s.finish = { s with block := b, fill := 0, h := h, computed := true } := by
  obtain ⟨b, h, e⟩ := s.pad_frame
  exact ⟨b, h, by rw [State.finish, e]⟩

/-- What no ABSORB writes. -/
theorem absorb_frame {nb : Nat} {s t : State} (h : absorb nb s = .next t) :
    t = { s with block := t.block, fill := t.fill, h := t.h, lenLo := t.lenLo, lenHi := t.lenHi,
                 corrupted := t.corrupted, faults := t.faults } := by
  obtain ⟨-, rfl⟩ | ⟨-, ⟨-, rfl⟩ | ⟨-, -, rfl⟩ | ⟨-, -, -, -, rfl⟩ | ⟨-, -, -, -, rfl⟩⟩ := absorb_next h
  · rfl
  · rfl
  · rfl
  · rfl
  · obtain ⟨b, f, h, lo, hi, c, e⟩ := absorbLoop_frame nb (absorbBytes s.data nb) s
    rw [e]

/-- What no FINALIZE writes. -/
theorem execFinalize_frame {s t : State} (h : execFinalize s = .next t) :
    t = { s with block := t.block, fill := t.fill, h := t.h, computed := t.computed, dout := t.dout,
                 writtenDout := t.writtenDout, faults := t.faults } := by
  obtain ⟨-, rfl⟩ | ⟨-, ⟨-, rfl⟩ | ⟨-, -, rfl⟩ | ⟨-, -, rfl⟩⟩ := execFinalize_next h
  · rfl
  · rfl
  · rfl
  · obtain ⟨b, h, e⟩ := s.finish_frame
    rw [e]; rfl

/-! ### What an instruction that answers has done -/

/-- The ways an instruction can go on, over all instructions: it returned a value or recorded a fault, or loaded DATA or a word
of DOUT, or performed a command. -/
theorem exec_next {i : Instr} {s t : State} (h : exec i s = .next t) :
    (commandOf i = none ∧ ((∃ v, t = s.answer v) ∨ ∃ r, t = s.recordFault r)) ∨
    (∃ v, i = .wrData v ∧ t = s.loadData v) ∨
    (∃ k v, i = wrDoutRow k v ∧ t = s.loadDout k v) ∨
    (∃ c, commandOf i = some c ∧ performCmd c s = .next t) := by
  cases i with
  | wrCmd v =>
    obtain ⟨c, hc, hp⟩ := execWrCmd_next h
    exact .inr (.inr (.inr ⟨c, by simp [commandOf, hc, Except.toOption], hp⟩))
  | wrData v => cases h; exact .inr (.inl ⟨v, rfl, rfl⟩)
  | rdData => exact .inl ⟨rfl, (readData_next h).imp (fun h => ⟨_, h.2⟩) fun h => ⟨_, h.2⟩⟩
  | rdStatus | rdLenlo | rdLenhi =>
    exact .inl ⟨rfl, (readContext_next h).imp (fun h => ⟨_, h.2⟩) fun h => ⟨_, h.2⟩⟩
  | rdH0 => exact .inl ⟨rfl, (readContext_next (view := fun s => s.h[0]) h).imp (⟨_, ·.2⟩) (⟨_, ·.2⟩)⟩
  | rdH1 => exact .inl ⟨rfl, (readContext_next (view := fun s => s.h[1]) h).imp (⟨_, ·.2⟩) (⟨_, ·.2⟩)⟩
  | rdH2 => exact .inl ⟨rfl, (readContext_next (view := fun s => s.h[2]) h).imp (⟨_, ·.2⟩) (⟨_, ·.2⟩)⟩
  | rdH3 => exact .inl ⟨rfl, (readContext_next (view := fun s => s.h[3]) h).imp (⟨_, ·.2⟩) (⟨_, ·.2⟩)⟩
  | rdH4 => exact .inl ⟨rfl, (readContext_next (view := fun s => s.h[4]) h).imp (⟨_, ·.2⟩) (⟨_, ·.2⟩)⟩
  | rdDout0 | rdDout1 | rdDout2 | rdDout3 | rdDout4 =>
    exact .inl ⟨rfl, (readDout_next h).imp (fun h => ⟨_, h.2⟩) fun h => ⟨_, h.2⟩⟩
  | wrDout0 v => cases h; exact .inr (.inr (.inl ⟨0, v, rfl, rfl⟩))
  | wrDout1 v => cases h; exact .inr (.inr (.inl ⟨1, v, rfl, rfl⟩))
  | wrDout2 v => cases h; exact .inr (.inr (.inl ⟨2, v, rfl, rfl⟩))
  | wrDout3 v => cases h; exact .inr (.inr (.inl ⟨3, v, rfl, rfl⟩))
  | wrDout4 v => cases h; exact .inr (.inr (.inl ⟨4, v, rfl, rfl⟩))
  | reset => exact .inr (.inr (.inr ⟨.reset, rfl, h⟩))
  | absorb0 => exact .inr (.inr (.inr ⟨.absorb0, rfl, h⟩))
  | absorb1 => exact .inr (.inr (.inr ⟨.absorb1, rfl, h⟩))
  | absorb2 => exact .inr (.inr (.inr ⟨.absorb2, rfl, h⟩))
  | absorb3 => exact .inr (.inr (.inr ⟨.absorb3, rfl, h⟩))
  | absorb4 => exact .inr (.inr (.inr ⟨.absorb4, rfl, h⟩))
  | finalize => exact .inr (.inr (.inr ⟨.finalize, rfl, h⟩))

/-- The same for a command: RESET, an ABSORB of some count, or FINALIZE. An `ABSORB 0` did nothing, or found no context. -/
theorem performCmd_next {c : Cmd} {s t : State} (h : performCmd c s = .next t) :
    (c = .reset ∧ t = s.createContext) ∨
    (c = .absorb0 ∧ s.init = true ∧ t = s) ∨
    (c = .absorb0 ∧ s.init = false ∧ t = s.recordFault .uninitContext) ∨
    (∃ nb ∈ [1, 2, 3, 4], c = absorbCmd nb ∧ absorb nb s = .next t) ∨
    (c = .finalize ∧ execFinalize s = .next t) := by
  cases c with
  | reset => cases h; exact .inl ⟨rfl, rfl⟩
  | absorb0 =>
    obtain ⟨hi, ht⟩ | ⟨hi, ⟨-, ht⟩ | ⟨hn, -⟩ | ⟨hn, -⟩ | ⟨hn, -⟩⟩ := absorb_next (nb := 0) h
    · exact .inr (.inr (.inl ⟨rfl, hi, ht⟩))
    · exact .inr (.inl ⟨rfl, hi, ht⟩)
    · exact absurd rfl hn
    · exact absurd rfl hn
    · exact absurd rfl hn
  | absorb1 => exact .inr (.inr (.inr (.inl ⟨1, by simp, rfl, h⟩)))
  | absorb2 => exact .inr (.inr (.inr (.inl ⟨2, by simp, rfl, h⟩)))
  | absorb3 => exact .inr (.inr (.inr (.inl ⟨3, by simp, rfl, h⟩)))
  | absorb4 => exact .inr (.inr (.inr (.inl ⟨4, by simp, rfl, h⟩)))
  | finalize => exact .inr (.inr (.inr (.inr ⟨rfl, h⟩)))

/-- What an instruction that answers does to the fault record: it recorded one fault and did nothing else, or it left the
record as it was (R173). -/
theorem exec_faults {i : Instr} {s t : State} (h : exec i s = .next t) :
    (∃ r, t = s.recordFault r) ∨ t.faults = s.faults := by
  obtain ⟨-, ⟨v, rfl⟩ | hr⟩ | ⟨v, -, rfl⟩ | ⟨k, v, -, rfl⟩ | ⟨c, -, hp⟩ := exec_next h
  · exact .inr rfl
  · exact .inl hr
  · exact .inr rfl
  · exact .inr rfl
  · obtain ⟨-, rfl⟩ | ⟨-, -, rfl⟩ | ⟨-, -, rfl⟩ | ⟨nb, -, -, ha⟩ | ⟨-, hf⟩ := performCmd_next hp
    · exact .inr rfl
    · exact .inr rfl
    · exact .inl ⟨_, rfl⟩
    · obtain ⟨-, rfl⟩ | ⟨-, ⟨-, rfl⟩ | ⟨-, -, rfl⟩ | ⟨-, -, -, -, rfl⟩ | ⟨-, -, -, -, rfl⟩⟩ := absorb_next ha
      · exact .inl ⟨_, rfl⟩
      · exact .inr rfl
      · exact .inr rfl
      · exact .inl ⟨_, rfl⟩
      · obtain ⟨b, f, h, lo, hi, c, e⟩ := absorbLoop_frame nb (absorbBytes s.data nb) s
        rw [e]; exact .inr rfl
    · obtain ⟨-, rfl⟩ | ⟨-, ⟨-, rfl⟩ | ⟨-, -, rfl⟩ | ⟨-, -, rfl⟩⟩ := execFinalize_next hf
      · exact .inl ⟨_, rfl⟩
      · exact .inr rfl
      · exact .inr rfl
      · obtain ⟨b, h, e⟩ := s.finish_frame
        rw [e]; exact .inr rfl

theorem exec_absorbRow {nb : Nat} (h : nb ∈ [1, 2, 3, 4]) (s : State) :
    exec (absorbRow nb) s = absorb nb s := by
  simp only [List.mem_cons, List.not_mem_nil, or_false] at h
  obtain rfl | rfl | rfl | rfl := h <;> rfl

theorem exec_wrDoutRow (k : Fin 5) (v : Word) (s : State) :
    exec (wrDoutRow k v) s = .next (s.loadDout k v) := by
  fin_cases k <;> rfl

theorem exec_rdDoutRow (k : Fin 5) (s : State) : exec (rdDoutRow k) s = readDout k s := by
  fin_cases k <;> rfl

/-! ### The ABSORB of one to four bytes, where no count wraps -/

/-- The three shapes of the chunk loop: the bytes leave room, fill the block, or cross its end. -/
theorem exec_absorbRow_shape {s : State} {nb : Nat} (hnb : nb ∈ [1, 2, 3, 4]) (ho : s.Open)
    (hw : s.writtenData = true) (hmax : nb ≤ s.cfg.dataBytesMax) (hf : s.fill < 64)
    (hl : s.len + 8 * nb < 2 ^ 64) :
    (s.fill + nb < 64 → exec (absorbRow nb) s = .next ((s.put (absorbBytes s.data nb)).count nb)) ∧
    (s.fill + nb = 64 → exec (absorbRow nb) s = .next ((s.put (absorbBytes s.data nb)).compress.count nb)) ∧
    (64 < s.fill + nb →
      exec (absorbRow nb) s =
        .next (((s.crossed (absorbBytes s.data nb)).put ((absorbBytes s.data nb).drop (64 - s.fill))).count
          (nb - (64 - s.fill)))) := by
  have hnb' := hnb
  simp only [List.mem_cons, List.not_mem_nil, or_false] at hnb'
  have hn4 : nb ≤ 4 := by omega
  have hlen := absorbBytes_length s.data hn4
  have hne : absorbBytes s.data nb ≠ [] := by
    intro e; rw [e] at hlen; simp at hlen; omega
  rw [exec_absorbRow hnb, absorb_of_open ho hw (by omega) hmax]
  obtain ⟨m, rfl⟩ : ∃ m, nb = m + 1 := ⟨nb - 1, by omega⟩
  have h1 : s.fill + (m + 1) ≤ 64 → absorbLoop (m + 1) (absorbBytes s.data (m + 1)) s =
      (s.chunk (absorbBytes s.data (m + 1))).count (m + 1) := by
    intro h
    rw [absorbLoop_one m _ s hne (by omega)
      (by rw [wraps_eq_false_iff _ _ (by omega), State.chunk_len, hlen]; exact hl), hlen]
  refine ⟨fun h => ?_, fun h => ?_, fun h => ?_⟩
  · rw [h1 (by omega), State.chunk_of_room _ _ (by omega)]
  · rw [h1 (by omega), State.chunk_of_full _ _ (by omega)]
  · rw [absorbLoop_cross m _ s hf (by omega) (by omega)]
    obtain ⟨n, rfl⟩ : ∃ n, m = n + 1 := ⟨m - 1, by omega⟩
    have hd : ((absorbBytes s.data (n + 1 + 1)).drop (64 - s.fill)).length = n + 1 + 1 - (64 - s.fill) := by
      rw [List.length_drop, hlen]
    have hc := State.crossed_len (absorbBytes s.data (n + 1 + 1)) s (by omega)
    rw [absorbLoop_one n _ _ (by intro e; rw [e] at hd; simp at hd; omega) (by rw [State.crossed_fill]; omega)
      (by rw [wraps_eq_false_iff _ _ (by omega), State.chunk_len, hc, hd]; omega), hd,
      State.chunk_of_room _ _ (by rw [State.crossed_fill]; omega)]

/-! ### One byte at a time, and the invariant of the chunk loop -/

/-- The count is its two halves. -/
theorem State.len_inj {s t : State} (h : s.len = t.len) : s.lenLo = t.lenLo ∧ s.lenHi = t.lenHi := by
  have := s.lenLo.isLt
  have := t.lenLo.isLt
  unfold State.len at h
  constructor <;> apply BitVec.eq_of_toNat_eq <;> omega

/-- Counting twice is counting the sum. -/
theorem State.count_count (s : State) (a b : Nat) (h : 8 * (a + b) < 2 ^ 32) :
    (s.count a).count b = s.count (a + b) := by
  have e : ((s.count a).count b).len = (s.count (a + b)).len := by
    rw [State.count_len _ _ (by omega), State.count_len _ _ (by omega), State.count_len _ _ (by omega)]
    omega
  obtain ⟨h1, h2⟩ := State.len_inj e
  have f (k : Nat) (s : State) : s.count k = { s with lenLo := (s.count k).lenLo, lenHi := (s.count k).lenHi } := rfl
  rw [f b, f (a + b), h1, h2]
  rfl

/-- A chunk and a count do not touch the same registers. -/
theorem State.chunk_count (s : State) (bs : List Byte) (k : Nat) :
    (s.count k).chunk bs = (s.chunk bs).count k := by
  have : ((s.count k).put bs).fill = (s.put bs).fill := rfl
  simp only [State.chunk, this]
  split <;> rfl

theorem State.absorbString_append (s : State) (a b : List Byte) :
    s.absorbString (a ++ b) = (s.absorbString a).absorbString b := List.foldl_append ..

/-- A chunk that stays in the block, counted, is its bytes absorbed one at a time. -/
theorem State.chunk_eq_absorbString (bs : List Byte) (s : State) (hne : bs ≠ [])
    (hf : s.fill + bs.length ≤ 64) : (s.chunk bs).count bs.length = s.absorbString bs := by
  induction bs generalizing s with
  | nil => exact absurd rfl hne
  | cons d ds ih =>
    by_cases hd : ds = []
    · subst hd; rfl
    · have hl : 0 < ds.length := List.length_pos_iff.mpr hd
      simp only [List.length_cons] at hf ⊢
      have e1 : s.chunk [d] = s.put [d] := State.chunk_of_room _ _ (by simp; omega)
      rw [State.absorbString, List.foldl_cons]
      show _ = (s.absorbByte d).absorbString ds
      rw [← ih _ hd (by
        simp only [State.absorbByte, e1, State.count_fill, State.put_fill, List.length_cons, List.length_nil]
        omega)]
      simp only [State.absorbByte, e1]
      rw [State.chunk_count, State.count_count _ _ _ (by omega), Nat.add_comm 1]
      congr 1
      have : (s.put [d]).put ds = s.put (d :: ds) := State.put_put [d] ds s
      simp only [State.chunk, this]

/-- The chunk loop keeps `FILL < 64`, a count of whole bytes, and `FILL` the byte count modulo the block. -/
theorem absorbLoop_inv (fuel : Nat) (bs : List Byte) (s : State) (hs : s.fill < 64) (hb : bs.length ≤ 4)
    (h8 : s.len % 8 = 0) (hfl : s.fill = s.len / 8 % 64) :
    (absorbLoop fuel bs s).fill < 64 ∧ (absorbLoop fuel bs s).len % 8 = 0 ∧
      (absorbLoop fuel bs s).fill = (absorbLoop fuel bs s).len / 8 % 64 := by
  induction fuel generalizing bs s with
  | zero => exact ⟨hs, h8, hfl⟩
  | succ n ih =>
    by_cases hne : bs = []
    · subst hne; exact ⟨hs, h8, hfl⟩
    · have hk : chunkLen bs s ≤ bs.length := by simp only [chunkLen]; omega
      have hk2 : chunkLen bs s ≤ 64 - s.fill := by simp only [chunkLen]; omega
      have hl : (bs.take (chunkLen bs s)).length = chunkLen bs s := by rw [List.length_take]; omega
      have hlt := s.len_lt
      have base : ((s.chunk (bs.take (chunkLen bs s))).count (chunkLen bs s)).fill < 64 ∧
          ((s.chunk (bs.take (chunkLen bs s))).count (chunkLen bs s)).len % 8 = 0 ∧
          ((s.chunk (bs.take (chunkLen bs s))).count (chunkLen bs s)).fill =
            ((s.chunk (bs.take (chunkLen bs s))).count (chunkLen bs s)).len / 8 % 64 := by
        rw [State.count_len _ _ (by omega), State.count_fill, State.chunk_len]
        refine ⟨State.chunk_fill_lt _ _ (by omega), by omega, ?_⟩
        by_cases h : s.fill + chunkLen bs s = 64
        · rw [State.chunk_of_full _ _ (by omega), State.compress_fill]; omega
        · rw [State.chunk_of_room _ _ (by omega), State.put_fill, hl]; omega
      by_cases hw : wraps (chunkLen bs s) (s.chunk (bs.take (chunkLen bs s))) = true
      · rw [absorbLoop_wrap _ _ _ hne hw]; exact base
      · rw [absorbLoop_next _ _ _ hne (by simpa using hw)]
        exact ih _ _ base.1 (by rw [List.length_drop]; omega) base.2.1 base.2.2

end Sys2Proof.Machine
end

