-- ==== Sys2Proof/Laws/Decode.lean ====
section
/-! SUPPORT. Laws of the decoder and the encoder (Decode.lean): every access that passes the checks of R123 has a row, and the
table's numbering of a write. -/

namespace Sys2Proof

/-- The offsets of the window that hold a register (R34). -/
theorem off_cases (off : BitVec 8) (h1 : off.toNat % 4 = 0) (h2 : off.toNat < 0x3C) :
    off = 0x00 ∨ off = 0x04 ∨ off = 0x08 ∨ off = 0x0C ∨ off = 0x10 ∨ off = 0x14 ∨ off = 0x18 ∨ off = 0x1C ∨
    off = 0x20 ∨ off = 0x24 ∨ off = 0x28 ∨ off = 0x2C ∨ off = 0x30 ∨ off = 0x34 ∨ off = 0x38 := by
  have key : ∀ n : Fin 256, n.val % 4 = 0 → n.val < 0x3C → n.val ∈
      [0x00, 0x04, 0x08, 0x0C, 0x10, 0x14, 0x18, 0x1C, 0x20, 0x24, 0x28, 0x2C, 0x30, 0x34, 0x38] := by
    decide +kernel
  have := key ⟨off.toNat, off.isLt⟩ h1 h2
  simp only [List.mem_cons, List.not_mem_nil, or_false] at this
  simp only [← BitVec.toNat_inj]
  exact this

/-- Every access that passes the checks of R123 has a row of R80. -/
theorem accessRow_of_checkAccess {a : Access} (h : checkAccess a = none) : (accessRow a).isSome = true := by
  obtain ⟨d, off, size, val⟩ := a
  unfold checkAccess at h
  simp only at h
  split at h
  · cases h
  split at h
  · cases h
  split at h
  · cases h
  split at h
  · cases h
  split at h
  · cases h
  obtain e | e | e | e | e | e | e | e | e | e | e | e | e | e | e := off_cases off (by omega) (by omega) <;>
    subst e <;> cases d <;> first | rfl | (exfalso; simp_all)

/-- An access that passes the checks decodes to its row. -/
theorem decodeAccess_of_row {a : Access} {i : Instr} (h : checkAccess a = none) (hr : accessRow a = some i) :
    decodeAccess a = .ok i := by
  simp only [decodeAccess, h, hr]

/-- An access that fails a check decodes to nothing, by the check's name. -/
theorem decodeAccess_of_check {a : Access} {r : Reject} (h : checkAccess a = some r) :
    decodeAccess a = .error r := by
  simp only [decodeAccess, h]

/-- The access of a write's 48 bits. -/
theorem busAccess_write (p : Nat) (hp : p < 256) (v : Word) :
    busAccess (0x100 + p + v.toNat * 2 ^ 16) = ⟨.write, BitVec.ofNat 8 p, 4, v⟩ := by
  have hv := v.isLt
  have h1 : (0x100 + p + v.toNat * 2 ^ 16).testBit 8 = true := by
    rw [Nat.testBit_eq_decide_div_mod_eq, decide_eq_true_eq]; omega
  simp only [busAccess, h1, if_true]
  congr 1
  · apply BitVec.eq_of_toNat_eq; simp only [BitVec.toNat_ofNat]; omega
  · apply BitVec.eq_of_toNat_eq; simp only [BitVec.toNat_ofNat]; omega

/-- A write's 48 bits decode as its access does. -/
theorem decodeTableWord_write (p : Nat) (hp : p < 256) (v : Word) :
    decodeTableWord 48 (0x100 + p + v.toNat * 2 ^ 16) =
      (decodeAccess ⟨.write, BitVec.ofNat 8 p, 4, v⟩).toOption := by
  have hv := v.isLt
  rw [decodeTableWord, if_neg (by decide), decodeBusRow, if_neg (by omega), busAccess_write p hp]
  split <;> simp_all [Except.toOption]

/-- A word is its fields (R72), where `RSV` is 0. -/
theorem cmd_fields (v : Word) (h : cmdRsv v = 0) : v = BitVec.ofNat 32 (cmdOp v + cmdNb v * 16) := by
  apply BitVec.eq_of_toNat_eq
  have := v.isLt
  simp only [cmdRsv, cmdOp, cmdNb, BitVec.toNat_ofNat] at *
  omega

end Sys2Proof
end

