-- ==== Sys2Proof/Laws/PerInstr.lean ====
section
/-! SUPPORT. PerInstr: what holds of every instruction as syntax, one lemma per constructor. -/

namespace Sys2Proof.Laws.EncodingFits

/-- The encoding fills whole bytes and fits in its number of bits, so the bits above them are 0, as withFetchWord lays them
out. -/
def Statement (i : Instr) : Prop :=
  (encode i).nbits % 8 = 0 ∧ (encode i).word < 2 ^ (encode i).nbits

/-- The encoding of a write fits. -/
theorem write_fits (off : Nat) (v : Word) (h : off < 256) :
    (encodeWrite off v).nbits % 8 = 0 ∧ (encodeWrite off v).word < 2 ^ (encodeWrite off v).nbits := by
  have := v.isLt
  constructor
  · show 48 % 8 = 0
    decide
  · show 0x100 + off + v.toNat * 2 ^ 16 < 2 ^ 48
    omega

theorem wrCmd (v : Word) : Statement (.wrCmd v) := write_fits _ v (by decide)

theorem wrData (v : Word) : Statement (.wrData v) := write_fits _ v (by decide)

theorem rdData : Statement .rdData := by unfold Statement; decide

theorem rdStatus : Statement .rdStatus := by unfold Statement; decide

theorem rdLenlo : Statement .rdLenlo := by unfold Statement; decide

theorem rdLenhi : Statement .rdLenhi := by unfold Statement; decide

theorem rdH0 : Statement .rdH0 := by unfold Statement; decide

theorem rdH1 : Statement .rdH1 := by unfold Statement; decide

theorem rdH2 : Statement .rdH2 := by unfold Statement; decide

theorem rdH3 : Statement .rdH3 := by unfold Statement; decide

theorem rdH4 : Statement .rdH4 := by unfold Statement; decide

theorem rdDout0 : Statement .rdDout0 := by unfold Statement; decide

theorem rdDout1 : Statement .rdDout1 := by unfold Statement; decide

theorem rdDout2 : Statement .rdDout2 := by unfold Statement; decide

theorem rdDout3 : Statement .rdDout3 := by unfold Statement; decide

theorem rdDout4 : Statement .rdDout4 := by unfold Statement; decide

theorem wrDout0 (v : Word) : Statement (.wrDout0 v) := write_fits _ v (by decide)

theorem wrDout1 (v : Word) : Statement (.wrDout1 v) := write_fits _ v (by decide)

theorem wrDout2 (v : Word) : Statement (.wrDout2 v) := write_fits _ v (by decide)

theorem wrDout3 (v : Word) : Statement (.wrDout3 v) := write_fits _ v (by decide)

theorem wrDout4 (v : Word) : Statement (.wrDout4 v) := write_fits _ v (by decide)

theorem reset : Statement .reset := by unfold Statement; decide

theorem absorb0 : Statement .absorb0 := by unfold Statement; decide

theorem absorb1 : Statement .absorb1 := by unfold Statement; decide

theorem absorb2 : Statement .absorb2 := by unfold Statement; decide

theorem absorb3 : Statement .absorb3 := by unfold Statement; decide

theorem absorb4 : Statement .absorb4 := by unfold Statement; decide

theorem finalize : Statement .finalize := by unfold Statement; decide

end Sys2Proof.Laws.EncodingFits
end

