-- ==== Sys2Proof/Laws/Step.lean ====
section
/-! SUPPORT. Laws of the step (Machine/Fetch.lean, Machine/Step.lean): what a step is for each kind of next event, and what a step
that answers has done. -/

namespace Sys2Proof.Machine

theorem step_idle {s : State} (hc : paramsOk s.cfg = true) (hp : s.pending = []) : step s = .next s := by
  simp [step, runStep, hc, hp]

theorem step_resetLine {s : State} {rest : List HostEvent} (hc : paramsOk s.cfg = true)
    (hp : s.pending = .resetLine :: rest) : step s = .next (s.popEvent rest).powerOn := by
  simp [step, runStep, hc, hp]

theorem step_access {s : State} {a : Access} {rest : List HostEvent} (hc : paramsOk s.cfg = true)
    (hp : s.pending = .access a :: rest) : step s = performAccess exec a (s.popEvent rest) := by
  simp [step, runStep, hc, hp]

theorem performAccess_of_ok {a : Access} {i : Instr} (h : decodeAccess a = .ok i) (s : State) :
    performAccess exec a s = exec i s := by
  simp only [performAccess, h]

theorem performAccess_of_error {a : Access} {r : Reject} (h : decodeAccess a = .error r) (s : State) :
    performAccess exec a s = .refused (Refusal.ofReject r) := by
  simp only [performAccess, h]

/-- A step that answers was idle, or took the power-on state, or ran the instruction of an access. -/
theorem step_next {s t : State} (h : step s = .next t) :
    paramsOk s.cfg = true ∧
    ((s.pending = [] ∧ t = s) ∨
     (∃ rest, s.pending = .resetLine :: rest ∧ t = (s.popEvent rest).powerOn) ∨
     (∃ a rest i, s.pending = .access a :: rest ∧ decodeAccess a = .ok i ∧
       exec i (s.popEvent rest) = .next t)) := by
  unfold step runStep at h
  split at h
  · cases h
  · refine ⟨by simp_all, ?_⟩
    split at h
    · cases h; exact .inl ⟨‹_›, rfl⟩
    · cases h; exact .inr (.inl ⟨_, ‹_›, rfl⟩)
    · unfold performAccess at h
      split at h
      · exact .inr (.inr ⟨_, _, _, ‹_›, ‹_›, h⟩)
      · cases h

/-! ### A host's accesses one after the other -/

/-- Serving an access runs what it decodes to on the instance as it is, its pending events untouched. -/
theorem serve_of_ok {a : Access} {i : Instr} {e : State} (hc : paramsOk e.cfg = true)
    (h : decodeAccess a = .ok i) : serve a e = exec i e := by
  rw [serve, step_access (s := e.pushEvent (.access a)) (rest := e.pending) hc rfl, performAccess_of_ok h]
  rfl

/-- The reset line of an instance, asserted before its pending events. -/
theorem step_pushEvent_resetLine {e : State} (hc : paramsOk e.cfg = true) :
    step (e.pushEvent .resetLine) = .next e.powerOn := by
  rw [step_resetLine (s := e.pushEvent .resetLine) (rest := e.pending) hc rfl]
  rfl

theorem serveAll_append (as bs : List Access) (s : State) :
    serveAll (as ++ bs) s =
      match serveAll as s with
      | .next t    => serveAll bs t
      | .fault f   => .fault f
      | .refused r => .refused r := by
  induction as generalizing s with
  | nil => rfl
  | cons a as ih =>
    simp only [List.cons_append, serveAll]
    cases serve a s with
    | next t => exact ih t
    | fault f => rfl
    | refused r => rfl

/-- Where the first part of a list of accesses answers, the rest is made from its answer. -/
theorem serveAll_append_of_next {as bs : List Access} {s t : State} (h : serveAll as s = .next t) :
    serveAll (as ++ bs) s = serveAll bs t := by
  rw [serveAll_append, h]

end Sys2Proof.Machine
end

