-- ==== Sys2Proof/Tests/Slice0.lean ====
section
/-! SUPPORT. Slice0: the model's own tests. The expected values are those of spec/95_test_vectors.md (each test names its
vector) or of the encoding tables of spec/30_encoding.md; the last part shows, for every obligation with hypotheses, states
and operands that meet them. -/

namespace Sys2Proof.Tests

set_option Elab.async false

open Sys2Proof Sys2Proof.Machine

/-! ### Helpers -/

/-- The next state, if there is one. -/
def nextOf {σ : Type} : Host.Outcome σ Fault Refusal → Option σ
  | .next s => some s
  | .fault _ | .refused _ => none

/-- The refusal, if there is one. -/
def refusalOf {σ : Type} : Host.Outcome σ Fault Refusal → Option Refusal
  | .refused r => some r
  | .next _ | .fault _ => none

/-- One field of the next state. -/
def field {σ α : Type} (f : σ → α) (o : Host.Outcome σ Fault Refusal) : Option α := (nextOf o).map f

/-- An answer that goes on has a next state. -/
theorem next_of_isSome {σ : Type} {o : Host.Outcome σ Fault Refusal} (h : (nextOf o).isSome = true) :
    ∃ t, o = .next t := by
  cases o with
  | next s => exact ⟨s, rfl⟩
  | fault _ => cases h
  | refused _ => cases h

/-- After power-on. -/
def fresh : State := State.reset

/-- After RESET. -/
def opened : State := fresh.createContext

/-- After RESET, DATA written. -/
def loaded (v : Word) : State := opened.loadData v

/-- A context with a chosen `FILL` and `LEN`, DATA written; byte `j` of the block is `j`. -/
def filled (fill : Nat) (hi lo v : Word) : State :=
  { loaded v with
    fill := fill, lenHi := hi, lenLo := lo, block := Vector.ofFn fun j => BitVec.ofNat 8 j.val }

/-- A computed context: `H`, `DOUT` and the marks as FINALIZE leaves them. -/
def computedCtx : State := { (loaded 0x61000000).copyOut with computed := true }

/-- A corrupted context, `COMPUTED` clear. -/
def corruptedCtx : State := (loaded 0x61000000).corrupt

/-- Every register written. -/
def full : State := computedCtx

/-- A state whose next event is an access. -/
def receiving (a : Access) (s : State) : State := { s with pending := [.access a] }

/-! ### WellFormed: an ill-formed write to CMD for each check is refused -/

/-- Op 0 (V-E1), a reserved op (V-E9), NB in 5..7 (V-E5), NB with RESET or FINALIZE (V-E7, V-E8), RSV (V-E10). -/
theorem test_ill_formed_cmd :
    [0x00000000, 0x00000004, 0x0000000F, 0x00000052, 0x00000072, 0x00000011, 0x00000013, 0x00000080,
      0x80000001].all (fun v : Word => !(Instr.wrCmd v).wellFormed) = true := by decide

/-- The seven admitted words (R74). -/
theorem test_well_formed_cmd :
    [0x00000001, 0x00000002, 0x00000012, 0x00000022, 0x00000032, 0x00000042, 0x00000003].all
      (fun v : Word => (Instr.wrCmd v).wellFormed) = true := by decide

/-! ### Decode: the word of every row, from the patterns of R71, R72 and R80 -/

theorem test_decode_rdData : decodeTableWord 16 0b000000100 = some .rdData := by decide
theorem test_decode_rdStatus : decodeTableWord 16 0b000001000 = some .rdStatus := by decide
theorem test_decode_rdLenlo : decodeTableWord 16 0b000001100 = some .rdLenlo := by decide
theorem test_decode_rdLenhi : decodeTableWord 16 0b000010000 = some .rdLenhi := by decide
theorem test_decode_rdH0 : decodeTableWord 16 0b000010100 = some .rdH0 := by decide
theorem test_decode_rdH1 : decodeTableWord 16 0b000011000 = some .rdH1 := by decide
theorem test_decode_rdH2 : decodeTableWord 16 0b000011100 = some .rdH2 := by decide
theorem test_decode_rdH3 : decodeTableWord 16 0b000100000 = some .rdH3 := by decide
theorem test_decode_rdH4 : decodeTableWord 16 0b000100100 = some .rdH4 := by decide
theorem test_decode_rdDout0 : decodeTableWord 16 0b000101000 = some .rdDout0 := by decide
theorem test_decode_rdDout1 : decodeTableWord 16 0b000101100 = some .rdDout1 := by decide
theorem test_decode_rdDout2 : decodeTableWord 16 0b000110000 = some .rdDout2 := by decide
theorem test_decode_rdDout3 : decodeTableWord 16 0b000110100 = some .rdDout3 := by decide
theorem test_decode_rdDout4 : decodeTableWord 16 0b000111000 = some .rdDout4 := by decide
theorem test_decode_wrCmd :
    decodeTableWord 48 (0x00000042 * 2 ^ 16 + 0b100000000) = some (.wrCmd 0x00000042) := by decide
theorem test_decode_wrData :
    decodeTableWord 48 (0x61626300 * 2 ^ 16 + 0b100000100) = some (.wrData 0x61626300) := by decide
theorem test_decode_wrDout0 :
    decodeTableWord 48 (0xA5A5A5A0 * 2 ^ 16 + 0b100101000) = some (.wrDout0 0xA5A5A5A0) := by decide
theorem test_decode_wrDout1 :
    decodeTableWord 48 (0xA5A5A5A1 * 2 ^ 16 + 0b100101100) = some (.wrDout1 0xA5A5A5A1) := by decide
theorem test_decode_wrDout2 :
    decodeTableWord 48 (0xA5A5A5A2 * 2 ^ 16 + 0b100110000) = some (.wrDout2 0xA5A5A5A2) := by decide
theorem test_decode_wrDout3 :
    decodeTableWord 48 (0xA5A5A5A3 * 2 ^ 16 + 0b100110100) = some (.wrDout3 0xA5A5A5A3) := by decide
theorem test_decode_wrDout4 :
    decodeTableWord 48 (0xA5A5A5A4 * 2 ^ 16 + 0b100111000) = some (.wrDout4 0xA5A5A5A4) := by decide
theorem test_decode_reset : decodeTableWord 32 0b00000000000000000000000000000001 = some .reset := by decide
theorem test_decode_absorb0 : decodeTableWord 32 0b00000000000000000000000000000010 = some .absorb0 := by decide
theorem test_decode_absorb1 : decodeTableWord 32 0b00000000000000000000000000010010 = some .absorb1 := by decide
theorem test_decode_absorb2 : decodeTableWord 32 0b00000000000000000000000000100010 = some .absorb2 := by decide
theorem test_decode_absorb3 : decodeTableWord 32 0b00000000000000000000000000110010 = some .absorb3 := by decide
theorem test_decode_absorb4 : decodeTableWord 32 0b00000000000000000000000001000010 = some .absorb4 := by decide
theorem test_decode_finalize : decodeTableWord 32 0b00000000000000000000000000000011 = some .finalize := by decide

/-- Patterns of no row: RD CMD, WR STATUS, WR H4, 0x06, 0x3C, 0xFC (V-B1, V-B2, V-B3, V-B5), a tenth bit. -/
theorem test_decode_refuses :
    [0x000, 0x108, 0x124, 0x006, 0x03C, 0x0FC, 0x204].all (fun w => (decodeTableWord 16 w).isNone) = true := by
  decide

/-- The encoder writes the same bits. -/
theorem test_encode : encode (.wrDout4 0xA5A5A5A4) = ⟨48, 0xA5A5A5A40138⟩ ∧ encode .absorb3 = ⟨32, 0x32⟩ := by
  decide

/-! ### Host accesses (V-B) -/

/-- What a step does with one access after RESET with DATA written. -/
def accessOutcome (dir : Dir) (off : BitVec 8) (size : Nat) (v : Word) : Option Refusal :=
  refusalOf (step (receiving ⟨dir, off, size, v⟩ (loaded 0)))

/-- V-B1, V-B2. -/
theorem test_read_write_direction :
    accessOutcome .read 0x00 4 0 = some .readOfWriteOnly ∧
    accessOutcome .write 0x08 4 0 = some .writeOfReadOnly ∧
    accessOutcome .write 0x24 4 0 = some .writeOfReadOnly := by decide +kernel

/-- V-B3, V-B4, V-B5. -/
theorem test_width_alignment_window :
    accessOutcome .read 0x06 4 0 = some .misaligned ∧
    accessOutcome .read 0x04 2 0 = some .accessWidth ∧
    accessOutcome .read 0x3C 4 0 = some .reservedOffset ∧
    accessOutcome .read 0xFC 4 0 = some .reservedOffset := by decide +kernel

/-- V-E1, V-E5, V-E7..V-E10 through the step. -/
theorem test_reserved_commands :
    accessOutcome .write 0x00 4 0x00000000 = some .reservedCmd ∧
    accessOutcome .write 0x00 4 0x00000052 = some .reservedNb ∧
    accessOutcome .write 0x00 4 0x00000013 = some .reservedCmd ∧
    accessOutcome .write 0x00 4 0x80000001 = some .reservedCmd := by decide +kernel

/-- V-B6, V-B7, V-B8, V-B9: the fault is recorded, and nothing is returned. -/
theorem test_power_on_faults :
    [Instr.rdDout4, .rdStatus, .absorb0, .finalize].map (fun i => field (fun t => (t.faults, t.returned)) (exec i fresh)) =
      [some ([.unwrittenRegister], []), some ([.uninitContext], []), some ([.uninitContext], []),
       some ([.uninitContext], [])] := by decide +kernel

/-- V-B10. -/
theorem test_data_needs_no_reset :
    field State.returned (exec .rdData (fresh.loadData 0x01020304)) = some [0x01020304] := by decide +kernel

/-- V-B11. -/
theorem test_initial_h :
    [Instr.rdH0, .rdH1, .rdH2, .rdH3, .rdH4].map (fun i => field State.returned (exec i opened)) =
      [some [0x67452301], some [0xEFCDAB89], some [0x98BADCFE], some [0x10325476], some [0xC3D2E1F0]] := by
  decide +kernel

/-- R103: FILL 63, CORRUPTED 1, COMPUTED 0. -/
theorem test_status_word : field State.returned (exec .rdStatus (filled 63 0 0x1F8 0).corrupt) = some [0x00003F02] := by
  decide +kernel

/-- R104, R105. -/
theorem test_len_views :
    field State.returned (exec .rdLenlo (filled 0 1 0x200 0)) = some [0x00000200] ∧
    field State.returned (exec .rdLenhi (filled 0 1 0x200 0)) = some [0x00000001] := by decide +kernel

/-- R111..R120: each DOUT row reads and writes its own word. -/
theorem test_dout_rows :
    [(Instr.wrDout0 10, Instr.rdDout0), (.wrDout1 11, .rdDout1), (.wrDout2 12, .rdDout2), (.wrDout3 13, .rdDout3),
     (.wrDout4 14, .rdDout4)].map
      (fun p => (nextOf (exec p.1 fresh)).bind fun t => field State.returned (exec p.2 t)) =
      [some [10], some [11], some [12], some [13], some [14]] := by decide +kernel

/-- R116: the neighbours of a written word stay. -/
theorem test_dout_neighbours :
    field State.dout (exec (.wrDout2 7) fresh) = some #v[0, 0, 7, 0, 0] ∧
    field State.writtenDout (exec (.wrDout2 7) fresh) = some #v[false, false, true, false, false] := by
  decide +kernel

/-! ### RESET (V-RS) -/

/-- V-RS2: RESET on a corrupted, computed context, DOUT a sentinel. -/
theorem test_reset_clears :
    field (fun t => (statusWord t, t.len, t.h)) (exec .reset computedCtx.corrupt) =
      some (0, 0, #v[0x67452301, 0xEFCDAB89, 0x98BADCFE, 0x10325476, 0xC3D2E1F0]) ∧
    field State.dout (exec .reset (computedCtx.corrupt.loadDout 0 0xA5A5A5A5)) =
      some (computedCtx.corrupt.loadDout 0 0xA5A5A5A5).dout := by decide +kernel

/-! ### ABSORB (V-A) -/

/-- V-A1. -/
theorem test_absorb_three :
    field (fun t => (t.block.toList.take 3, statusWord t, t.len, t.h == defaultIv))
      (exec .absorb3 (loaded 0x61626300)) = some ([0x61, 0x62, 0x63], 0x00000300, 0x18, true) := by decide +kernel

/-- V-A2, V-A6. -/
theorem test_absorb_zero :
    field (fun t => (statusWord t, t.len)) (exec .absorb0 computedCtx) = some (1, 0) ∧
    field (fun t => (statusWord t, t.len)) (exec .absorb0 opened) = some (0, 0) := by decide +kernel

/-- V-A3, V-A5: the flags are tested before DATA is read. -/
theorem test_absorb_order :
    field statusWord (exec .absorb1 { opened with computed := true }) = some 0x00000003 ∧
    field (fun t => (t.faults, statusWord t)) (exec .absorb1 opened) = some ([.unwrittenRegister], 0) := by decide +kernel

/-- V-A4: two chunks of two bytes around one compression. -/
theorem test_absorb_crosses :
    field (fun t => (statusWord t, t.len, t.h, t.block.toList.take 2))
      (exec .absorb4 (filled 62 0 0x1F0 0x3E3F4041)) =
      some (0x00000200, 0x210, #v[0x02142EAB, 0x455491A1, 0x12F674E4, 0xFF0FCDF2, 0x29A84102], [0x40, 0x41]) := by
  decide +kernel

/-- V-A8: the carry is silent. -/
theorem test_absorb_carries :
    field (fun t => (statusWord t, t.lenHi, t.lenLo)) (exec .absorb1 (filled 63 0 0xFFFFFFF8 0x11000000)) =
      some (0, 1, 0) := by decide +kernel

/-- V-A10: the wrap corrupts. -/
theorem test_absorb_wraps :
    field (fun t => (statusWord t, t.len)) (exec .absorb1 (filled 63 0xFFFFFFFF 0xFFFFFFF8 0x11000000)) =
      some (2, 0) := by decide +kernel

/-- V-A11: the bytes after the chunk that wraps are not copied. -/
theorem test_absorb_wrap_stops :
    field (fun t => (statusWord t, t.len, t.block.toList.take 2))
      (exec .absorb4 (filled 62 0xFFFFFFFF 0xFFFFFFF0 0x11223344)) = some (2, 0, [0x00, 0x01]) := by decide +kernel

/-- R75: an ABSORB of two bytes takes the two most significant. -/
theorem test_absorb_two :
    field (fun t => (t.block.toList.take 3, t.fill)) (exec .absorb2 (loaded 0x3C3D7777)) =
      some ([0x3C, 0x3D, 0x00], 2) := by decide +kernel

/-! ### FINALIZE (V-F) -/

/-- V-F1: the digest of "abc". -/
theorem test_finalize_abc :
    field (fun t => (t.dout, statusWord t, t.len))
      ((loaded 0x61626300).put [0x61, 0x62, 0x63] |>.count 3 |> exec .finalize) =
      some (#v[0x2DA7E223, 0xE707D077, 0x4A8408C5, 0x7CA5515B, 0x85BE7C39], 1, 0x18) := by decide +kernel

/-- V-F3: the digest of the empty message. -/
theorem test_finalize_empty :
    field State.dout (exec .finalize opened) =
      some #v[0x6921C688, 0xA1B72AEA, 0xF0C72774, 0x1C466C70, 0x9FD986BD] := by decide +kernel

/-- V-D6, V-D15: 55 bytes take two padding blocks with the default PAD_LIMIT, one with 56. -/
theorem test_finalize_fifty_five :
    field State.dout (exec .finalize ((opened.put (List.replicate 55 0x61)).count 55)) =
      some #v[0x53D0E162, 0xE93A87B8, 0xB1230735, 0x6B119064, 0x78782A79] ∧
    field State.dout
      (exec .finalize { (opened.put (List.replicate 55 0x61)).count 55 with
                        cfg := { defaultConfig with padLimit := 56 } }) =
      some #v[0x811A0E37, 0x7AD76087, 0x6D2BCB5C, 0x0709497E, 0xF75319C5] := by decide +kernel

/-- V-F2: a second FINALIZE restores a word the host overwrote. -/
theorem test_finalize_again :
    field (fun t => (t.dout == computedCtx.h, t.h == computedCtx.h)) (exec .finalize (computedCtx.loadDout 0 0)) =
      some (true, true) := by decide +kernel

/-- V-F4, V-F5: on a corrupted context nothing changes. -/
theorem test_finalize_corrupted :
    nextOf (exec .finalize corruptedCtx) = some corruptedCtx ∧
    nextOf (exec .finalize computedCtx.corrupt) = some computedCtx.corrupt := by decide +kernel

/-! ### The internal operations (V-R, V-C, V-K) -/

/-- V-R1, V-R2. -/
theorem test_round_iv :
    mdeRound defaultConfig ⟨0x67452301, 0xEFCDAB89, 0x98BADCFE, 0x10325476, 0xC3D2E1F0⟩ 0 =
      ⟨0xA643E348, 0x02CE8A46, 0xD5C4F7E6, 0xA62EB73F, 0xC951D840⟩ ∧
    mdeRound defaultConfig ⟨0, 0, 0, 0, 0⟩ 1 = ⟨0x00000020, 0, 0, 0, 0⟩ := by decide +kernel

/-- V-R3, V-R4. -/
theorem test_round_selects :
    mdeRound defaultConfig ⟨0x80000000, 0xFFFFFFFF, 0x12345678, 0x9ABCDEF0, 0xFFFFFFFF⟩ 0xFFFFFFFF =
      ⟨0x468AD0C2, 0x01000000, 0xFFFFFFFF, 0x048D159E, 0xF37BC26A⟩ ∧
    mdeRound defaultConfig ⟨0xFFFFFFFF, 0, 0x12345678, 0x9ABCDEF0, 0⟩ 0 =
      ⟨0x579BDDF3, 0xFFFFFFFF, 0x00000000, 0x048D159E, 0xF37BC26A⟩ := by decide +kernel

/-- V-C2. -/
theorem test_compress_ones :
    compressWords defaultConfig defaultIv (List.replicate 64 0xFF) =
      #v[0x1F64637B, 0xF98DE5BB, 0x91DA26FC, 0x01631699, 0xB151FC0F] := by decide +kernel

/-- V-K2, V-K4, V-K5, V-K6: LEN after, and whether the count wrapped. -/
theorem test_count :
    [(0x00000000, 0xFFFFFFF8, 1), (0xFFFFFFFE, 0xFFFFFFF8, 1), (0xFFFFFFFF, 0xFFFFFFF8, 1),
     (0xFFFFFFFF, 0xFFFFFFF0, 4), (0xFFFFFFFF, 0xFFFFFFD0, 4)].map
      (fun p : Word × Word × Nat =>
        let s := filled 0 p.1 p.2.1 0
        ((s.count p.2.2).lenHi, (s.count p.2.2).lenLo, wraps p.2.2 s)) =
      [(1, 0, false), (0xFFFFFFFF, 0, false), (0, 0, true), (0, 0x10, true),
       (0xFFFFFFFF, 0xFFFFFFF0, false)] := by decide +kernel

/-! ### The step -/

/-- A table word placed at power-on is the next step: RESET by its 32-bit word, WR.DATA by its pattern and value. -/
theorem test_fetch_word :
    field State.init (step (fresh.withFetchWord 32 0x00000001)) = some true ∧
    field (fun t => (t.data, t.writtenData)) (step (fresh.withFetchWord 48 0x616263000104)) =
      some (0x61626300, true) := by decide +kernel

/-- P6: the fault of RD STATUS at power-on is recorded; a later RESET makes the context usable, and the fault stays. -/
theorem test_fault_recorded :
    field (fun t => (t.faults, t.init))
      (core.run 2 { fresh with pending := [.access ⟨.read, 0x08, 4, 0⟩, .access ⟨.write, 0x00, 4, 1⟩] }) =
      some ([.uninitContext], true) := by decide +kernel

/-- R190: the reset line closes the context again; R191, D29: a recorded fault stays. -/
theorem test_reset_line :
    field (fun t => (t.init, t.writtenData, t.faults))
      (step { (loaded 5).recordFault .uninitContext with pending := [.resetLine] }) =
      some (false, false, [.uninitContext]) := by decide +kernel

/-- R156, R172: parameters out of range are refused. -/
theorem test_bad_parameter :
    refusalOf (step { opened with cfg := { defaultConfig with padLimit := 57 } }) = some .badParameter ∧
    refusalOf (step { opened with cfg := { defaultConfig with rot := { defaultRot with rE := 32 } } }) =
      some .badParameter := by decide +kernel

/-- R9 (the default 4), and log 16 for a smaller DATA_BYTES_MAX: a count above it is refused, one at it goes on. -/
theorem test_data_bytes_max :
    refusalOf (exec .absorb3 { loaded 0 with cfg := { defaultConfig with dataBytesMax := 2 } }) = some .reservedNb ∧
    field State.fill (exec .absorb2 { loaded 0 with cfg := { defaultConfig with dataBytesMax := 2 } }) = some 2 ∧
    field State.fill (exec .absorb4 (loaded 0)) = some 4 := by decide +kernel

/-- R193: DOUT is read only if `STATUS[1] = 0`. -/
theorem test_reads_after_status : readsAfterStatus 0x00000002 = [] ∧ readsAfterStatus 0x00000001 = doutReads := by
  decide

/-- R193 and V-D1: the host's hash of the empty message. -/
theorem test_one_hash_empty :
    field State.returned (oneHash [] fresh) =
      some [1, 0x6921C688, 0xA1B72AEA, 0xF0C72774, 0x1C466C70, 0x9FD986BD] := by decide +kernel

/-! ### The hypotheses of the obligations are met

One theorem per obligation with hypotheses: states and operands that meet them, for each clause. -/

/-- Every register written. -/
def everything : State := { filled 63 0 0x1F8 0x11223344 with writtenDout := Vector.replicate 5 true }

/-- ReadDataReturnsLastWrite. -/
theorem test_hyp_ReadDataReturnsLastWrite :
    (loaded 7).writtenData = true ∧ fresh.writtenData = false ∧ (∃ t, exec (.wrData 7) fresh = .next t) ∧
    (∃ t, exec .absorb0 opened = .next t) ∧ (∃ t, exec .absorb1 (loaded 7) = .next t) ∧
    (∃ t, exec .absorb4 everything = .next t) :=
  ⟨rfl, rfl, next_of_isSome (by decide +kernel), next_of_isSome (by decide +kernel),
    next_of_isSome (by decide +kernel), next_of_isSome (by decide +kernel)⟩

/-- DataPersistsUntilHostWrite: an instruction that keeps DATA and one that writes it. -/
theorem test_hyp_DataPersistsUntilHostWrite :
    (∃ t, exec .finalize opened = .next t) ∧ (∃ t, exec (.wrData 9) opened = .next t) :=
  ⟨next_of_isSome (by decide +kernel), next_of_isSome (by decide +kernel)⟩

/-- StatusViewShowsFlagsAndFill: FILL at both ends of its range. -/
theorem test_hyp_StatusViewShowsFlagsAndFill :
    opened.init = true ∧ opened.fill = 0 ∧ everything.init = true ∧ everything.fill = 63 ∧ fresh.init = false ∧
    (∃ t, exec .reset fresh = .next t) :=
  ⟨rfl, rfl, rfl, rfl, rfl, next_of_isSome (by decide +kernel)⟩

/-- ContextViewsReturnRegisters, ContextFaultsUntilFirstReset. -/
theorem test_hyp_ContextViews :
    opened.init = true ∧ fresh.init = false ∧ (∃ t, exec .finalize opened = .next t ∧ opened.init = true) :=
  ⟨rfl, rfl, (next_of_isSome (by decide +kernel)).imp fun _ h => ⟨h, rfl⟩⟩

/-- ReadDoutReturnsDigestWord, WrittenMarksGuardReads: each written mark, set and clear. -/
theorem test_hyp_WrittenMarks :
    (∀ i : Fin 5, everything.writtenDout[i] = true ∧ fresh.writtenDout[i] = false) ∧
    opened.Open ∧ opened.writtenData = false ∧ opened.init = true ∧ opened.corrupted = false := by decide +kernel

/-- DoutChangesOnlyByHostOrFinalize: the three cases. -/
theorem test_hyp_DoutChangesOnlyByHostOrFinalize :
    (∃ t, exec .reset everything = .next t) ∧ (∃ t, exec (.wrDout4 1) fresh = .next t) ∧
    (∃ t, exec .finalize opened = .next t) :=
  ⟨next_of_isSome (by decide +kernel), next_of_isSome (by decide +kernel), next_of_isSome (by decide +kernel)⟩

/-- OnlyCommandsChangeTheContext: every read answers where everything is written, and a read of DATA where nothing is; so do
the writes. -/
theorem test_hyp_OnlyCommandsChangeTheContext :
    (∀ i ∈ readRows, ∃ t, exec i everything = .next t) ∧ (∃ t, exec .rdData fresh = .next t) ∧ (∃ t, exec (.wrData 1) fresh = .next t) ∧
    (∀ k : Fin 5, ∃ t, exec (wrDoutRow k 1) fresh = .next t) ∧ (∀ i ∈ readRows, commandOf i = none) := by
  refine ⟨fun i hi => next_of_isSome ?_, next_of_isSome (by decide +kernel), next_of_isSome (by decide +kernel), fun k => next_of_isSome ?_, by decide⟩
  · have key : ∀ i ∈ readRows, (nextOf (exec i everything)).isSome = true := by decide +kernel
    exact key i hi
  · have key : ∀ k : Fin 5, (nextOf (exec (wrDoutRow k 1) fresh)).isSome = true := by decide +kernel
    exact key k

/-- ContextFaultsUntilFirstReset, WrittenMarksGuardReads, FinalizeTwiceGivesSameDigest, CorruptionIsSticky, AbsorbAboveDataBytesMaxIsRefused: counts
at and above the parameter. -/
theorem test_hyp_DataBytesMax :
    (∀ nb ∈ [1, 2, 3, 4], nb ≤ fresh.cfg.dataBytesMax ∧ nb ≤ everything.cfg.dataBytesMax) ∧
    cmdBytes .absorb4 ≤ corruptedCtx.cfg.dataBytesMax ∧
    ({ fresh with cfg := { defaultConfig with dataBytesMax := 3 } } : State).cfg.dataBytesMax < 4 := by decide +kernel

/-- AbsorbCheckOrder: computed, corrupted, and both. -/
theorem test_hyp_AbsorbCheckOrder :
    (computedCtx.init = true ∧ computedCtx.computed = true ∧ computedCtx.corrupted = false) ∧
    (corruptedCtx.init = true ∧ corruptedCtx.computed = false ∧ corruptedCtx.corrupted = true) ∧
    (computedCtx.corrupt.computed = true ∧ computedCtx.corrupt.corrupted = true) ∧
    (4 ≤ computedCtx.cfg.dataBytesMax ∧ 4 ≤ corruptedCtx.cfg.dataBytesMax) := by decide +kernel

/-- AbsorbCopiesCompressesCounts, AbsorbEqualsByteAtATime: the last room, the exact fill, the first crossing, and the largest
count that does not wrap. -/
theorem test_hyp_AbsorbCopiesCompressesCounts :
    ∀ p ∈ [(59, 4), (60, 4), (61, 4), (63, 4), (63, 1), (0, 1)],
      (filled p.1 0 0 0).Open ∧ (filled p.1 0 0 0).writtenData = true ∧ (filled p.1 0 0 0).fill < 64 ∧
      p.2 ∈ [1, 2, 3, 4] ∧ p.2 ≤ (filled p.1 0 0 0).cfg.dataBytesMax ∧
      (filled p.1 0 0 0).len + 8 * p.2 < 2 ^ 64 ∧
      (filled p.1 0xFFFFFFFF 0xFFFFFFD8 0).len + 8 * p.2 < 2 ^ 64 := by decide +kernel

/-- AbsorbWrapCorruptsAndStops: the first chunk wraps and leaves room, wraps and fills the block (V-A11), and only the second
wraps. -/
theorem test_hyp_AbsorbWrapCorruptsAndStops :
    ((filled 59 0xFFFFFFFF 0xFFFFFFE0 0).Open ∧ (filled 59 0xFFFFFFFF 0xFFFFFFE0 0).writtenData = true ∧
      4 ≤ (filled 59 0xFFFFFFFF 0xFFFFFFE0 0).cfg.dataBytesMax ∧ min 4 (64 - 59) = 4 ∧ 2 ^ 64 ≤ (filled 59 0xFFFFFFFF 0xFFFFFFE0 0).len + 8 * 4 ∧ 59 + 4 < 64) ∧
    (2 ^ 64 ≤ (filled 62 0xFFFFFFFF 0xFFFFFFF0 0).len + 8 * min 4 (64 - 62) ∧ 62 + min 4 (64 - 62) = 64) ∧
    ((filled 62 0xFFFFFFFF 0xFFFFFFE8 0).len + 8 * min 4 (64 - 62) < 2 ^ 64 ∧
      2 ^ 64 ≤ (filled 62 0xFFFFFFFF 0xFFFFFFE8 0).len + 8 * 4) := by decide +kernel

/-- FinalizePadsAndCopiesDigest: the last index of one padding block and the first of two, for both limits. -/
theorem test_hyp_FinalizePadsAndCopiesDigest :
    ∀ p ∈ [(54, 55, true), (55, 55, false), (55, 56, true), (56, 56, false), (63, 56, false), (0, 55, true)],
      ({ filled p.1 0 0 0 with cfg := { defaultConfig with padLimit := p.2.1 } } : State).Open ∧
      paramsOk { defaultConfig with padLimit := p.2.1 } = true ∧ p.1 < 64 ∧
      decide (p.1 + 1 ≤ p.2.1) = p.2.2 := by decide +kernel

/-- FinalizeOnCorruptedIsNoOp, FinalizeOnComputedCopiesAgain, CorruptionIsSticky. -/
theorem test_hyp_Finalize :
    (corruptedCtx.init = true ∧ corruptedCtx.corrupted = true ∧ corruptedCtx.computed = false) ∧
    (computedCtx.corrupt.init = true ∧ computedCtx.corrupt.corrupted = true ∧ computedCtx.corrupt.computed = true) ∧
    (computedCtx.init = true ∧ computedCtx.corrupted = false ∧ computedCtx.computed = true) ∧
    commandOf .finalize = some .finalize ∧ commandOf (.wrCmd 0x42) = some .absorb4 := by decide +kernel

/-- FinalizeTwiceGivesSameDigest: the first FINALIZE pads, or copies again. -/
theorem test_hyp_FinalizeTwiceGivesSameDigest :
    (∃ t, exec .finalize opened = .next t ∧ opened.init = true ∧ opened.corrupted = false) ∧
    (∃ t, exec .finalize computedCtx = .next t ∧ computedCtx.init = true ∧ computedCtx.corrupted = false) :=
  ⟨(next_of_isSome (by decide +kernel)).imp fun _ h => ⟨h, rfl, rfl⟩,
    (next_of_isSome (by decide +kernel)).imp fun _ h => ⟨h, rfl, rfl⟩⟩

/-- DigestFrozenUntilReset, ComputedSetByFinalizeOnly. -/
theorem test_hyp_DigestFrozenUntilReset :
    (∃ t, exec .absorb1 computedCtx = .next t) ∧ computedCtx.computed = true ∧
    commandOf .absorb1 ≠ some .reset ∧ (∃ t, exec .finalize opened = .next t) ∧ (∃ t, exec .reset computedCtx = .next t) :=
  ⟨next_of_isSome (by decide +kernel), rfl, by decide, next_of_isSome (by decide +kernel),
    next_of_isSome (by decide +kernel)⟩

/-- CorruptionCauses: an ABSORB after FINALIZE, a count that wraps (V-A10), one that does not, and RESET. -/
theorem test_hyp_CorruptionCauses :
    (∃ t, exec .absorb1 computedCtx = .next t) ∧
    (∃ t, exec .absorb1 (filled 63 0xFFFFFFFF 0xFFFFFFF8 0) = .next t) ∧
    (∃ t, exec .absorb4 (filled 59 0 0 0) = .next t) ∧ (∃ t, exec .reset corruptedCtx = .next t) ∧
    computedCtx.fill < 64 ∧ (filled 63 0xFFFFFFFF 0xFFFFFFF8 0).fill < 64 :=
  ⟨next_of_isSome (by decide +kernel), next_of_isSome (by decide +kernel), next_of_isSome (by decide +kernel),
    next_of_isSome (by decide +kernel), by decide +kernel, by decide +kernel⟩

/-- RoundMatchesFormula, CompressFoldsBlockIntoState, LastWordsMissTwoStateWords: legal amounts at both ends, and three
byte strings. -/
theorem test_hyp_Compress :
    paramsOk defaultConfig = true ∧ paramsOk { defaultConfig with rot := ⟨0, 31, 0, 31, 0, 31⟩ } = true ∧
    (List.replicate 52 (1 : Byte)).length = 52 ∧ (List.replicate 12 (2 : Byte)).length = 12 ∧
    (∃ x : Work, x = rounds defaultConfig ⟨0, 0, 0, 0, 0⟩ (schedule fresh.block.toList)) :=
  ⟨by decide, by decide, by decide, by decide, _, rfl⟩

/-- EachWordSpellsOneInstruction: a CMD word, a pattern, a write with a value, and a read whose value bits are ignored. -/
theorem test_hyp_EachWordSpellsOneInstruction :
    decodeTableWord 32 0x42 = some .absorb4 ∧ decodeTableWord 16 0x138 = some (.wrDout4 0) ∧
    decodeTableWord 48 0xFFFFFFFF0100 = some (.wrCmd 0xFFFFFFFF) ∧ decodeTableWord 48 0x10038 = some .rdDout4 := by
  decide

/-- AccessCheckOrder, StepRefusesReservedAccess: one access for each clause, at the ends of its range. -/
theorem test_hyp_AccessCheckOrder :
    [checkAccess ⟨.read, 0x06, 2, 0⟩, checkAccess ⟨.read, 0x3D, 4, 0⟩, checkAccess ⟨.write, 0x3C, 4, 0⟩,
     checkAccess ⟨.read, 0xFC, 4, 0⟩, checkAccess ⟨.read, 0x00, 4, 0⟩, checkAccess ⟨.write, 0x08, 4, 0⟩,
     checkAccess ⟨.write, 0x24, 4, 0⟩, checkAccess ⟨.read, 0x04, 4, 0⟩, checkAccess ⟨.read, 0x38, 4, 0⟩,
     checkAccess ⟨.write, 0x04, 4, 0⟩, checkAccess ⟨.write, 0x28, 4, 0⟩] =
    [some .accessWidth, some .misaligned, some .reservedOffset, some .reservedOffset, some .readOfWriteOnly,
     some .writeOfReadOnly, some .writeOfReadOnly, none, none, none, none] := by decide

/-- EncodedInstructionDecodesBack, StepRunsDecodedAccess, StepRefusesReservedAccess. -/
theorem test_hyp_Step :
    (Instr.wrCmd 0x00000042).wellFormed = true ∧ Instr.finalize.wellFormed = true ∧ paramsOk opened.cfg = true ∧
    (receiving ⟨.write, 0x04, 4, 7⟩ opened).pending = .access ⟨.write, 0x04, 4, 7⟩ :: [] ∧
    decodeTableWord 48 0x70104 = some (.wrData 7) := by decide

/-- WriteCommandPerformsIt: an admitted word and one of each refusal. -/
theorem test_hyp_WriteCommandPerformsIt :
    decodeCmd 0x42 = .ok .absorb4 ∧ decodeCmd 0x00 = .error .reservedCmd ∧ decodeCmd 0x52 = .error .reservedNb :=
  ⟨rfl, rfl, rfl⟩

/-- IdleEngineKeepsItsState, ResetLineGivesPowerOn, BadParametersAreRefused. -/
theorem test_hyp_Events :
    paramsOk opened.cfg = true ∧ opened.pending = [] ∧
    ({ opened with pending := [.resetLine] } : State).pending = .resetLine :: [] ∧
    ({ defaultConfig with padLimit := 57 } : Config).padLimit ≠ 56 ∧ paramsOk { defaultConfig with padLimit := 57 } = false := by
  decide

/-- RecordedFaultsAreNeverCleared: a step that records a fault, and one that records a refusal. -/
theorem test_hyp_RecordedFaultsAreNeverCleared :
    (⟨receiving ⟨.read, 0x08, 4, 0⟩ fresh, []⟩ : RunRecord).step.state.faults ≠ [] ∧
    (⟨receiving ⟨.read, 0x00, 4, 0⟩ fresh, []⟩ : RunRecord).step.refusals ≠ [] := by decide +kernel

/-- FaultTableIsExact: an access of each kind the table lists, and accesses it does not list. -/
theorem test_hyp_FaultTableIsExact :
    ((∃ t, exec .rdH4 fresh = .next t) ∧ UninitAccess .rdH4 fresh) ∧
    ((∃ t, exec (.wrCmd 0x00000002) fresh = .next t) ∧ UninitAccess (.wrCmd 0x00000002) fresh) ∧
    ((∃ t, exec .rdData fresh = .next t) ∧ UnwrittenAccess .rdData fresh) ∧
    ((∃ t, exec .rdDout4 fresh = .next t) ∧ UnwrittenAccess .rdDout4 fresh) ∧
    ((∃ t, exec .absorb4 opened = .next t) ∧ UnwrittenAccess .absorb4 opened) ∧
    ((∃ t, exec .reset fresh = .next t) ∧ ¬ UninitAccess .reset fresh ∧ ¬ UnwrittenAccess .reset fresh) ∧
    ((∃ t, exec .absorb0 opened = .next t) ∧ ¬ UninitAccess .absorb0 opened ∧ ¬ UnwrittenAccess .absorb0 opened) := by
  refine ⟨⟨next_of_isSome ?_, ?_⟩, ⟨next_of_isSome ?_, ?_⟩, ⟨next_of_isSome ?_, ?_⟩, ⟨next_of_isSome ?_, ?_⟩,
    ⟨next_of_isSome ?_, ?_⟩, ⟨next_of_isSome ?_, ?_⟩, ⟨next_of_isSome ?_, ?_⟩⟩ <;> decide +kernel

/-- StepKeepsContextInvariant: an open context at the end of a block, and a computed one. -/
theorem test_hyp_StepKeepsContextInvariant :
    (receiving (Instr.absorb1.access) everything).Inv ∧
    (∃ t, step (receiving (Instr.absorb1.access) everything) = .next t) ∧
    (receiving (Instr.finalize.access) computedCtx).Inv ∧
    (∃ t, step (receiving (Instr.finalize.access) computedCtx) = .next t) :=
  ⟨by decide +kernel, next_of_isSome (by decide +kernel), by decide +kernel, next_of_isSome (by decide +kernel)⟩

/-- StaleBlockBytesNeverMatter: two states that differ beyond FILL, and a step of each kind. -/
theorem test_hyp_StaleBlockBytesNeverMatter :
    opened.Inv ∧ opened.SameButStale { opened with block := Vector.replicate 64 0xFF } ∧
    opened.block ≠ Vector.replicate 64 0xFF ∧
    (∃ t, step (receiving (Instr.finalize.access) opened) = .next t) ∧
    field State.faults (step (receiving (Instr.absorb1.access) opened)) = some [.unwrittenRegister] ∧
    refusalOf (step (receiving ⟨.read, 0x00, 4, 0⟩ opened)) = some .readOfWriteOnly := by
  refine ⟨by decide +kernel, ⟨rfl, fun j hj => absurd hj (Nat.not_lt_zero _)⟩, by decide +kernel,
    next_of_isSome (by decide +kernel), by decide +kernel, by decide +kernel⟩

/-- SplittingDoesNotMatter: three chunks, one of them empty. -/
theorem test_hyp_SplittingDoesNotMatter :
    let chunks : List (List Byte) := [[0x61], [], [0x62, 0x63, 0x64, 0x65]]
    let s : State := { opened with pending := eventsOf (chunks.flatMap absorbChunk) }
    paramsOk s.cfg = true ∧ s.Open ∧ s.fill < 64 ∧ (∀ c ∈ chunks, c.length ≤ 4 ∧ c.length ≤ s.cfg.dataBytesMax) ∧
    s.len + 8 * chunks.flatten.length < 2 ^ 64 ∧ s.pending = eventsOf (chunks.flatMap absorbChunk) := by
  decide +kernel

/-- HashProgramReturnsDigest, OneHashReturnsDigest, PaddedMessageIsWholeBlocks: the empty message and one of 55 bytes. -/
theorem test_hyp_HashProgramReturnsDigest :
    paramsOk ({ fresh with pending := eventsOf (hashProgram []) } : State).cfg = true ∧
    ({ fresh with pending := eventsOf (hashProgram []) } : State).pending = eventsOf (hashProgram []) ∧
    4 ≤ fresh.cfg.dataBytesMax ∧ 8 * ([] : List Byte).length < 2 ^ 64 ∧ 8 * (List.replicate 55 (0x61 : Byte)).length < 2 ^ 64 := by decide +kernel

/-- OneHashOfTooLongMessageReadsNoDigest: a message of 2^61 bytes. -/
theorem test_hyp_OneHashOfTooLongMessage :
    paramsOk fresh.cfg = true ∧ 4 ≤ fresh.cfg.dataBytesMax ∧
    2 ^ 64 ≤ 8 * (List.replicate (2 ^ 61) (0 : Byte)).length := by
  refine ⟨by decide, by decide, ?_⟩
  rw [List.length_replicate]
  norm_num

/-- Two instances and two agents, each agent writing the DATA register of its own instance. -/
def twoEngines : System :=
  { regWindow := defaultRegWindow
    bases := [0x100, 0x200]
    engines := [opened, opened]
    agents := [⟨[⟨.write, 0x104, 4, 1⟩], []⟩, ⟨[⟨.write, 0x204, 4, 2⟩], []⟩] }

/-- WindowAddressReachesItsInstance: the first and the last address of a window, and one beyond a smaller REG_WINDOW. -/
theorem test_hyp_WindowAddressReachesItsInstance :
    twoEngines.basesOk = true ∧ twoEngines.bases[1]? = some 0x200 ∧ twoEngines.route 0x200 = some 1 ∧
    twoEngines.route 0x2FF = some 1 ∧ twoEngines.route 0x1FF = some 0 ∧ twoEngines.route 0x300 = none ∧
    ({ twoEngines with regWindow := 0x80 } : System).route 0x27F = some 1 ∧
    ({ twoEngines with regWindow := 0x80 } : System).route 0x280 = none := by
  decide

/-- AccessTouchesOneInstance, AccessesToDifferentInstancesCommute. -/
theorem test_hyp_AccessTouchesOneInstance :
    twoEngines.agents[0]? = some ⟨[⟨.write, 0x104, 4, 1⟩], []⟩ ∧ twoEngines.route 0x104 = some 0 ∧
    twoEngines.agents[1]? = some ⟨[⟨.write, 0x204, 4, 2⟩], []⟩ ∧ twoEngines.route 0x204 = some 1 ∧
    (∃ s1, twoEngines.step 0 = .next s1 ∧ ∃ s12, s1.step 1 = .next s12) := by
  refine ⟨rfl, by decide, rfl, by decide, ?_⟩
  obtain ⟨s1, h1⟩ := next_of_isSome (o := twoEngines.step 0) (by decide +kernel)
  have key : ((nextOf (twoEngines.step 0)).bind fun s => nextOf (s.step 1)).isSome = true := by decide +kernel
  rw [h1] at key
  exact ⟨s1, h1, next_of_isSome key⟩

/-- ResetLineTouchesOneInstance: the second instance is reset, the first stays open. -/
theorem test_hyp_ResetLineTouchesOneInstance :
    twoEngines.engines[1]? = some opened ∧ paramsOk opened.cfg = true ∧
    field (fun s : System => s.engines.map State.init) (twoEngines.perform (.resetLine 1)) = some [true, false] := by
  decide +kernel

end Sys2Proof.Tests
end

namespace Sys2Proof.Machine

/-! ### When an ABSORB is refused (R9, R74; log 16) -/

theorem absorb_refused_of_lt {nb : Nat} {s : State} (h : s.cfg.dataBytesMax < nb) :
    absorb nb s = .refused .reservedNb := by
  rw [absorb, if_pos h]

/-- Past the test of `DATA_BYTES_MAX` each of R131's checks answers a next state. -/
theorem absorb_answers_of_le {nb : Nat} {s : State} (h : nb ≤ s.cfg.dataBytesMax) :
    ∃ t, absorb nb s = .next t := by
  rw [absorb_of_le h]
  repeat' split
  all_goals exact ⟨_, rfl⟩

/-- The test of `DATA_BYTES_MAX` is the one refusal an ABSORB has. -/
theorem absorb_refused_iff (nb : Nat) (s : State) :
    absorb nb s = .refused .reservedNb ↔ s.cfg.dataBytesMax < nb := by
  refine ⟨fun h => ?_, absorb_refused_of_lt⟩
  by_contra hle
  obtain ⟨t, ht⟩ := absorb_answers_of_le (Nat.not_lt.mp hle)
  rw [ht] at h
  cases h

theorem exec_absorb0 (s : State) : exec .absorb0 s = absorb 0 s := rfl

/-- Settles O51: an ABSORB's one refusal is the test of `DATA_BYTES_MAX`, and no parameter is below 0. -/
theorem absorbAboveDataBytesMaxIsRefused : Obligations.AbsorbAboveDataBytesMaxIsRefused := by
  refine ⟨rfl, fun s nb hnb => ⟨?_, ?_⟩⟩
  · rw [exec_absorbRow hnb, absorb_refused_iff]
  · rw [exec_absorb0, ne_eq, absorb_refused_iff]
    exact Nat.not_lt_zero _

/-! ### The step (R5, R6) -/

/-- Settles O34: the step takes the access off the queue and performs the instruction it spells. -/
theorem stepRunsDecodedAccess : Obligations.StepRunsDecodedAccess := by
  intro s a rest i hc hp hd
  calc step s = performAccess exec a (s.popEvent rest) := step_access hc hp
    _ = exec i (s.popEvent rest) := performAccess_of_ok hd _

/-- Settles O37: with nothing pending a step is idle. -/
theorem idleEngineKeepsItsState : Obligations.IdleEngineKeepsItsState :=
  fun _ hc hp => step_idle hc hp

end Sys2Proof.Machine

namespace Sys2Proof.Machine

/-! ### What every command leaves -/

/-- What no command writes: DATA and its mark, the parameters, the pending events and the values returned. -/
theorem performCmd_frame {c : Cmd} {s t : State} (h : performCmd c s = .next t) :
    t = { t with data := s.data, writtenData := s.writtenData, cfg := s.cfg, pending := s.pending,
                 returned := s.returned } := by
  obtain ⟨-, rfl⟩ | ⟨-, -, rfl⟩ | ⟨-, -, rfl⟩ | ⟨nb, -, -, ha⟩ | ⟨-, hf⟩ := performCmd_next h
  · rfl
  · rfl
  · rfl
  · rw [absorb_frame ha]
  · rw [execFinalize_frame hf]

/-- RESET creates the context, and no other command writes INIT. -/
theorem performCmd_init {c : Cmd} {s t : State} (h : performCmd c s = .next t) :
    (c = .reset ∧ t.init = true) ∨ t.init = s.init := by
  obtain ⟨hc, rfl⟩ | ⟨-, -, rfl⟩ | ⟨-, -, rfl⟩ | ⟨nb, -, -, ha⟩ | ⟨-, hf⟩ := performCmd_next h
  · exact .inl ⟨hc, rfl⟩
  · exact .inr rfl
  · exact .inr rfl
  · exact .inr (by rw [absorb_frame ha])
  · exact .inr (by rw [execFinalize_frame hf])

theorem commandOf_wrDoutRow (k : Fin 5) (v : Word) : commandOf (wrDoutRow k v) = none := by
  fin_cases k <;> rfl

/-! ### DATA (R29, R53) -/

theorem wordByte_toNat (w : Word) (j : Nat) : (wordByte w j).toNat = w.toNat / 2 ^ (24 - 8 * j) % 256 := by
  rw [wordByte, BitVec.extractLsb'_toNat, Nat.shiftRight_eq_div_pow]

/-- Settles O3: the inversion of exec leaves WR.DATA as the one writer, and byte `j` of an ABSORB is a byte of the word. -/
theorem dataPersistsUntilHostWrite : Obligations.DataPersistsUntilHostWrite := by
  refine ⟨fun i s t h => ?_, fun d nb hnb => ⟨absorbBytes_length d hnb, fun j hj => ?_⟩⟩
  · obtain ⟨-, ⟨v, rfl⟩ | ⟨r, rfl⟩⟩ | ⟨v, rfl, rfl⟩ | ⟨k, v, -, rfl⟩ | ⟨c, -, hp⟩ := exec_next h
    · exact .inl ⟨rfl, rfl⟩
    · exact .inl ⟨rfl, rfl⟩
    · exact .inr ⟨v, rfl, rfl, rfl⟩
    · exact .inl ⟨rfl, rfl⟩
    · rw [performCmd_frame hp]
      exact .inl ⟨rfl, rfl⟩
  · rw [absorbBytes_getD d hnb hj, wordByte_toNat]

/-! ### The context views (R32, R33) -/

/-- The view of the context a row reads (R103..R110). -/
def viewOf : Instr → Option (State → Word)
  | .rdStatus => some statusWord
  | .rdLenlo => some State.lenLo
  | .rdLenhi => some State.lenHi
  | .rdH0 => some fun s => s.h[0]
  | .rdH1 => some fun s => s.h[1]
  | .rdH2 => some fun s => s.h[2]
  | .rdH3 => some fun s => s.h[3]
  | .rdH4 => some fun s => s.h[4]
  | _ => none

theorem exec_of_viewOf {i : Instr} {view : State → Word} (h : viewOf i = some view) (s : State) :
    exec i s = readContext view s := by
  cases i <;> cases h <;> rfl

theorem exec_view_of_init {i : Instr} {view : State → Word} (h : viewOf i = some view) {s : State}
    (hi : s.init = true) : exec i s = .next (s.answer (view s)) := by
  rw [exec_of_viewOf h, readContext, if_pos hi]

theorem exec_contextReadRow_of_uninit {i : Instr} (h : i ∈ contextReadRows) {s : State} (hi : s.init = false) :
    exec i s = .next (s.recordFault .uninitContext) := by
  have hview : ∀ i ∈ contextReadRows, (viewOf i).isSome = true := by decide
  obtain ⟨view, hv⟩ := Option.isSome_iff_exists.mp (hview i h)
  rw [exec_of_viewOf hv, readContext_of_uninit hi]

theorem decodeAccess_read {off : BitVec 8} {i : Instr}
    (h : off.toNat % 4 = 0 ∧ off.toNat ≠ 0 ∧ off.toNat < 0x3C ∧ readRow off.toNat = some i) (x : Word) :
    decodeAccess ⟨.read, off, 4, x⟩ = .ok i := by
  obtain ⟨h4, h0, hlt, hrow⟩ := h
  refine decodeAccess_of_row ?_ hrow
  simp only [checkAccess]
  rw [if_neg (by decide), if_neg (by omega), if_neg (by omega), if_neg (by simp [h0]), if_neg (by simp)]

/-- The offsets of the context views are read-only (R121). -/
theorem decodeAccess_write_view {off : BitVec 8}
    (h : off.toNat % 4 = 0 ∧ 0x08 ≤ off.toNat ∧ off.toNat ≤ 0x24) (x : Word) :
    decodeAccess ⟨.write, off, 4, x⟩ = .error .writeOfReadOnly := by
  obtain ⟨h4, hlo, hhi⟩ := h
  refine decodeAccess_of_check ?_
  simp only [checkAccess]
  rw [if_neg (by decide), if_neg (by omega), if_neg (by omega), if_neg (by simp), if_pos (by simp [hlo, hhi])]

theorem flagWord_toNat (b : Bool) : (flagWord b).toNat = b.toNat := by
  cases b <;> rfl

/-- STATUS as the sum of its fields, which do not overlap (R103). -/
theorem statusWord_toNat {s : State} (hf : s.fill < 64) :
    (statusWord s).toNat = 2 ^ 8 * s.fill + (2 ^ 1 * s.corrupted.toNat + s.computed.toNat) := by
  have hc := s.computed.toNat_lt
  have hk := s.corrupted.toNat_lt
  have hfill : (BitVec.ofNat 32 s.fill <<< 8).toNat = 2 ^ 8 * s.fill := by
    rw [BitVec.toNat_shiftLeft, BitVec.toNat_ofNat, Nat.shiftLeft_eq]; omega
  have hcorr : (flagWord s.corrupted <<< 1).toNat = 2 ^ 1 * s.corrupted.toNat := by
    rw [BitVec.toNat_shiftLeft, flagWord_toNat, Nat.shiftLeft_eq]; omega
  have hflags : 2 ^ 1 * s.corrupted.toNat + s.computed.toNat =
      2 ^ 1 * s.corrupted.toNat ||| s.computed.toNat := Nat.two_pow_add_eq_or_of_lt (by omega) _
  rw [Nat.two_pow_add_eq_or_of_lt (by omega), hflags, statusWord, BitVec.toNat_or, BitVec.toNat_or, hfill, hcorr,
    flagWord_toNat, Nat.or_assoc]

theorem statusWord_createContext (s : State) : statusWord s.createContext = 0 :=
  BitVec.eq_of_toNat_eq (statusWord_toNat (s := s.createContext) (by simp))

theorem decide_eq_one_of_toNat {b : Bool} {n : Nat} (h : n = b.toNat) : decide (n = 1) = b := by
  subst h
  cases b <;> rfl

/-- The bits of STATUS (R32). -/
theorem statusWord_fields {s : State} (hf : s.fill < 64) :
    (statusWord s).getLsbD 0 = s.computed ∧
    (statusWord s).getLsbD 1 = s.corrupted ∧
    (statusWord s).toNat / 2 ^ 2 % 2 ^ 6 = 0 ∧
    (statusWord s).toNat / 2 ^ 8 % 2 ^ 6 = s.fill ∧
    (statusWord s).toNat / 2 ^ 14 = 0 := by
  have hc := s.computed.toNat_lt
  have hk := s.corrupted.toNat_lt
  simp only [BitVec.getLsbD, Nat.testBit_eq_decide_div_mod_eq, statusWord_toNat hf]
  refine ⟨?_, ?_, by omega, by omega, by omega⟩
  · exact decide_eq_one_of_toNat (by omega)
  · exact decide_eq_one_of_toNat (by omega)

/-- Settles O4: the fields of STATUS do not overlap, and RESET clears all of them. -/
theorem statusViewShowsFlagsAndFill : Obligations.StatusViewShowsFlagsAndFill := by
  refine fun s x => ⟨decodeAccess_read (by decide) x, decodeAccess_write_view (by decide) x,
    fun hi hf => ⟨statusWord s, exec_view_of_init rfl hi, statusWord_fields hf⟩,
    exec_contextReadRow_of_uninit (by decide), fun t ht => ?_⟩
  cases ht
  rw [exec_view_of_init rfl rfl, statusWord_createContext]
  rfl

/-- Settles O5: each view is a read of the context, at an offset that only a read may use. -/
theorem contextViewsReturnRegisters : Obligations.ContextViewsReturnRegisters := by
  refine fun s x => ⟨fun hi => ⟨exec_view_of_init rfl hi, exec_view_of_init rfl hi,
      exec_view_of_init (view := fun s => s.h[0]) rfl hi, exec_view_of_init (view := fun s => s.h[1]) rfl hi,
      exec_view_of_init (view := fun s => s.h[2]) rfl hi, exec_view_of_init (view := fun s => s.h[3]) rfl hi,
      exec_view_of_init (view := fun s => s.h[4]) rfl hi⟩,
    fun hi i h => exec_contextReadRow_of_uninit (List.mem_cons_of_mem _ h) hi,
    fun p hp => ⟨decodeAccess_read ?_ x, decodeAccess_write_view ?_ x⟩⟩ <;>
  · revert p
    decide

/-! ### The marks INIT, WRITTEN_DATA and WRITTEN_DOUT (R35, R36) -/

/-- Settles O6: only RESET writes INIT, and every other access to the context looks at it first. -/
theorem contextFaultsUntilFirstReset : Obligations.ContextFaultsUntilFirstReset := by
  refine ⟨rfl, fun s => ⟨_, rfl, rfl⟩, fun i s t h hi => ?_, fun s h => ⟨fun i hi => ?_, fun nb hnb hmax => ?_⟩⟩
  · obtain ⟨-, ⟨v, rfl⟩ | ⟨r, rfl⟩⟩ | ⟨v, -, rfl⟩ | ⟨k, v, -, rfl⟩ | ⟨c, -, hp⟩ := exec_next h
    · exact hi
    · exact hi
    · exact hi
    · exact hi
    · obtain ⟨-, ht⟩ | ht := performCmd_init hp
      · exact ht
      · exact ht.trans hi
  · simp only [List.mem_append, List.mem_cons, List.not_mem_nil, or_false] at hi
    obtain hi | rfl | rfl := hi
    · exact exec_contextReadRow_of_uninit hi h
    · exact absorb_of_uninit h (Nat.zero_le _)
    · exact execFinalize_of_uninit h
  · rw [exec_absorbRow hnb]
    exact absorb_of_uninit h hmax

/-- FINALIZE on a created, uncorrupted context copies H out, padded first or not. -/
theorem execFinalize_of_uncorrupted {s : State} (hi : s.init = true) (hk : s.corrupted = false) :
    execFinalize s = .next (if s.computed then s.copyOut else s.finish.copyOut) := by
  rw [execFinalize, if_neg (by simp [hi]), if_neg (by simp [hk])]
  split <;> rfl

/-- Settles O10: the marks are written by the loads of their registers and by the output copy, and are looked at before a
value is returned or absorbed. -/
theorem writtenMarksGuardReads : Obligations.WrittenMarksGuardReads := by
  refine ⟨⟨rfl, rfl⟩, fun s => ⟨fun v => ⟨_, rfl, rfl⟩, fun k v => ⟨_, exec_wrDoutRow k v s, rfl⟩,
    fun hi hk => ⟨_, execFinalize_of_uncorrupted hi hk, ?_⟩, readData_of_unwritten, fun k hk => ?_,
    fun ho hw nb hnb hmax => ?_, ⟨_, rfl, rfl, rfl⟩⟩⟩
  · split <;> rfl
  · rw [exec_rdDoutRow]
    exact readDout_of_unwritten hk
  · rw [exec_absorbRow hnb]
    refine absorb_of_unwritten ho hw ?_ hmax
    rintro rfl
    simp at hnb

/-! ### DOUT and COMPUTED: what FINALIZE does (R26, R30) -/

/-- Settles O9: of the commands only FINALIZE writes DOUT, and a FINALIZE that writes it copies H. -/
theorem doutChangesOnlyByHostOrFinalize : Obligations.DoutChangesOnlyByHostOrFinalize := by
  intro i s t h
  obtain ⟨-, ⟨v, rfl⟩ | ⟨r, rfl⟩⟩ | ⟨v, -, rfl⟩ | ⟨k, v, hi, rfl⟩ | ⟨c, hc, hp⟩ := exec_next h
  · exact .inl ⟨rfl, rfl⟩
  · exact .inl ⟨rfl, rfl⟩
  · exact .inl ⟨rfl, rfl⟩
  · exact .inr (.inl ⟨k, v, hi, rfl⟩)
  · obtain ⟨-, rfl⟩ | ⟨-, -, rfl⟩ | ⟨-, -, rfl⟩ | ⟨nb, -, -, ha⟩ | ⟨rfl, hf⟩ := performCmd_next hp
    · exact .inl ⟨rfl, rfl⟩
    · exact .inl ⟨rfl, rfl⟩
    · exact .inl ⟨rfl, rfl⟩
    · rw [absorb_frame ha]
      exact .inl ⟨rfl, rfl⟩
    · obtain ⟨-, rfl⟩ | ⟨-, ⟨-, rfl⟩ | ⟨hk, -, rfl⟩ | ⟨hk, -, rfl⟩⟩ := execFinalize_next hf
      · exact .inl ⟨rfl, rfl⟩
      · exact .inl ⟨rfl, rfl⟩
      · exact .inr (.inr ⟨hc, hk, rfl, rfl⟩)
      · exact .inr (.inr ⟨hc, hk, rfl, rfl⟩)

theorem execFinalize_computed {s t : State} (h : execFinalize s = .next t) :
    t.computed = true ↔ s.computed = true ∨ (s.init = true ∧ s.corrupted = false) := by
  obtain ⟨hi, rfl⟩ | ⟨hi, ⟨hk, rfl⟩ | ⟨hk, hc, rfl⟩ | ⟨hk, -, rfl⟩⟩ := execFinalize_next h
  · simp [hi]
  · simp [hk]
  · simp [hc]
  · simp [hi, hk, State.finish]

theorem absorbCmd_ne_reset (nb : Nat) : absorbCmd nb ≠ .reset := by
  unfold absorbCmd; split <;> decide

theorem absorbCmd_ne_finalize (nb : Nat) : absorbCmd nb ≠ .finalize := by
  unfold absorbCmd; split <;> decide

theorem performCmd_computed {c : Cmd} {s t : State} (h : performCmd c s = .next t) :
    t.computed = true ↔
      (s.computed = true ∧ c ≠ .reset) ∨ (c = .finalize ∧ s.init = true ∧ s.corrupted = false) := by
  obtain ⟨rfl, rfl⟩ | ⟨rfl, -, rfl⟩ | ⟨rfl, -, rfl⟩ | ⟨nb, -, rfl, ha⟩ | ⟨rfl, hf⟩ := performCmd_next h
  · simp
  · simp
  · simp
  · rw [absorb_frame ha]
    simp [absorbCmd_ne_reset, absorbCmd_ne_finalize]
  · simpa using execFinalize_computed hf

/-- Settles O24: no access but a command writes COMPUTED; of those, RESET clears it and FINALIZE sets it. -/
theorem computedSetByFinalizeOnly : Obligations.ComputedSetByFinalizeOnly := by
  intro i s t h
  obtain ⟨hc, ⟨v, rfl⟩ | ⟨r, rfl⟩⟩ | ⟨v, rfl, rfl⟩ | ⟨k, v, rfl, rfl⟩ | ⟨c, hc, hp⟩ := exec_next h
  · simp [hc]
  · simp [hc]
  · simp [commandOf]
  · simp [commandOf_wrDoutRow]
  · simpa [hc] using performCmd_computed hp


/-! ### The invariant of the hash context (10_state.md section 2) -/

/-- The invariant speaks of the context, its marks and the parameters, and these four updates write none of them. -/
theorem State.answer_inv (v : Word) (s : State) : (s.answer v).Inv ↔ s.Inv := Iff.rfl

theorem State.recordFault_inv (r : FaultReason) (s : State) : (s.recordFault r).Inv ↔ s.Inv := Iff.rfl

theorem State.loadData_inv (v : Word) (s : State) : (s.loadData v).Inv ↔ s.Inv := Iff.rfl

theorem State.popEvent_inv (rest : List HostEvent) (s : State) : (s.popEvent rest).Inv ↔ s.Inv := Iff.rfl

/-- A host write of a word of `DOUT` sets a mark, which takes no mark of a finished context away. -/
theorem State.Inv.loadDout {s : State} (h : s.Inv) (k : Fin 5) (v : Word) : (s.loadDout k v).Inv := by
  obtain ⟨hcfg, hfill, hlen, hopen, hdone, hinit⟩ := h
  refine ⟨hcfg, hfill, hlen, hopen, fun hc => ⟨(hdone hc).1, ?_⟩, hinit⟩
  rw [State.loadDout_writtenDout, (hdone hc).2]
  ext j hj
  simp

theorem State.Inv.corrupt {s : State} (h : s.Inv) (hi : s.init = true) : s.corrupt.Inv := by
  obtain ⟨hcfg, hfill, hlen, hopen, hdone, -⟩ := h
  exact ⟨hcfg, hfill, hlen, hopen, hdone, fun h0 => absurd (hi.symm.trans h0) (by decide)⟩

@[simp] theorem State.createContext_len (s : State) : s.createContext.len = 0 := by simp [State.len]

@[simp] theorem State.powerOn_len (s : State) : s.powerOn.len = 0 := by simp [State.len]

theorem State.Inv.createContext {s : State} (h : s.Inv) : s.createContext.Inv :=
  ⟨h.1, by simp⟩

theorem State.Inv.powerOn {s : State} (h : s.Inv) : s.powerOn.Inv :=
  ⟨h.1, by simp⟩

/-- The chunk loop on an open context: its own invariant for FILL and LEN, its frame for the rest. -/
theorem State.Inv.absorbLoop {s : State} (h : s.Inv) (ho : s.Open) (fuel : Nat) {bs : List Byte}
    (hb : bs.length ≤ 4) : (absorbLoop fuel bs s).Inv := by
  obtain ⟨hcfg, hfill, hlen, hopen, -, -⟩ := h
  obtain ⟨hi, hc, -⟩ := ho
  obtain ⟨hfill', hlen', hmod'⟩ := absorbLoop_inv fuel bs s hfill hb hlen (hopen hc)
  obtain ⟨b, f, d, lo, hi', c, e⟩ := absorbLoop_frame fuel bs s
  have ecfg : (Machine.absorbLoop fuel bs s).cfg = s.cfg := by rw [e]
  have einit : (Machine.absorbLoop fuel bs s).init = true := by rw [e]; exact hi
  have ecomp : (Machine.absorbLoop fuel bs s).computed = false := by rw [e]; exact hc
  refine ⟨ecfg ▸ hcfg, hfill', hlen', fun _ => hmod', ?_, ?_⟩
  · rw [ecomp]; exact nofun
  · rw [einit]; exact nofun

theorem State.Inv.absorb {s t : State} (h : s.Inv) {nb : Nat} (hnb : nb ≤ 4) (ha : absorb nb s = .next t) :
    t.Inv := by
  obtain ⟨-, rfl⟩ | ⟨hi, ⟨-, rfl⟩ | ⟨-, -, rfl⟩ | ⟨-, -, -, -, rfl⟩ | ⟨-, hc, hk, -, rfl⟩⟩ := absorb_next ha
  · exact (s.recordFault_inv _).mpr h
  · exact h
  · exact h.corrupt hi
  · exact (s.recordFault_inv _).mpr h
  · exact h.absorbLoop ⟨hi, hc, hk⟩ nb ((absorbBytes_length _ hnb).trans_le hnb)

/-- The output copy writes every mark, as the invariant asks of a finished context. -/
theorem State.Inv.copyOut {s : State} (h : s.Inv) : s.copyOut.Inv := by
  obtain ⟨hcfg, hfill, hlen, hopen, hdone, hinit⟩ := h
  exact ⟨hcfg, hfill, hlen, hopen, fun hc => ⟨(hdone hc).1, rfl⟩, hinit⟩

/-- Padding leaves FILL at 0, and the output copy writes every mark. -/
theorem State.Inv.finish_copyOut {s : State} (h : s.Inv) (hi : s.init = true) : s.finish.copyOut.Inv := by
  obtain ⟨hcfg, -, hlen, -, -, -⟩ := h
  obtain ⟨b, d, e⟩ := s.finish_frame
  rw [e]
  exact ⟨hcfg, (by decide : 0 < 64), hlen, nofun, fun _ => ⟨rfl, rfl⟩,
    fun h0 => absurd (hi.symm.trans h0) (by decide)⟩

theorem State.Inv.finalize {s t : State} (h : s.Inv) (hf : execFinalize s = .next t) : t.Inv := by
  obtain ⟨-, rfl⟩ | ⟨hi, ⟨-, rfl⟩ | ⟨-, -, rfl⟩ | ⟨-, -, rfl⟩⟩ := execFinalize_next hf
  · exact (s.recordFault_inv _).mpr h
  · exact h
  · exact h.copyOut
  · exact h.finish_copyOut hi

theorem State.Inv.performCmd {s t : State} (h : s.Inv) {c : Cmd} (hp : performCmd c s = .next t) : t.Inv := by
  obtain ⟨-, rfl⟩ | ⟨-, -, rfl⟩ | ⟨-, -, rfl⟩ | ⟨nb, hnb, -, ha⟩ | ⟨-, hf⟩ := performCmd_next hp
  · exact h.createContext
  · exact h
  · exact (s.recordFault_inv _).mpr h
  · exact h.absorb (by simp at hnb; omega) ha
  · exact h.finalize hf

theorem State.Inv.exec {s t : State} (h : s.Inv) {i : Instr} (he : exec i s = .next t) : t.Inv := by
  obtain ⟨-, ⟨v, rfl⟩ | ⟨r, rfl⟩⟩ | ⟨v, -, rfl⟩ | ⟨k, v, -, rfl⟩ | ⟨c, -, hp⟩ := exec_next he
  · exact (s.answer_inv v).mpr h
  · exact (s.recordFault_inv r).mpr h
  · exact (s.loadData_inv v).mpr h
  · exact h.loadDout k v
  · exact h.performCmd hp

/-- Settles O41: idling changes nothing, the reset line gives the zeros of power-on, and every instruction keeps the
invariant. -/
theorem stepKeepsContextInvariant : Obligations.StepKeepsContextInvariant := by
  intro s t h hs
  obtain ⟨-, ⟨-, rfl⟩ | ⟨rest, -, rfl⟩ | ⟨a, rest, i, -, -, he⟩⟩ := step_next hs
  · exact h
  · exact ((s.popEvent_inv rest).mpr h).powerOn
  · exact ((s.popEvent_inv rest).mpr h).exec he

/-- Settles O42: the defaults are legal, and every register of the context is 0. -/
theorem powerOnMeetsContextInvariant : Obligations.PowerOnMeetsContextInvariant :=
  ⟨rfl, by decide, rfl, fun _ => rfl, nofun, fun _ => ⟨rfl, rfl⟩⟩


/-! ### Stale bytes of BLOCK (10_state.md R39) -/

/-- The second state as the first with another block. -/
theorem State.sameButStale_iff {s s' : State} :
    s.SameButStale s' ↔
      ∃ b, s' = { s with block := b } ∧ ∀ j : Fin 64, j.val < s.fill → s.block[j] = b[j] := by
  refine ⟨fun ⟨hs, hb⟩ => ⟨_, hs, hb⟩, ?_⟩
  rintro ⟨b, rfl, hb⟩
  exact ⟨rfl, hb⟩

/-- An operation that neither reads nor writes BLOCK and does not raise FILL keeps the relation: no byte becomes one that
counts. -/
theorem State.SameButStale.map {s s' : State} (h : s.SameButStale s') (f : State → State)
    (hf : ∀ b, f { s with block := b } = { f s with block := b }) (hfill : (f s).fill ≤ s.fill) :
    (f s).SameButStale (f s') := by
  obtain ⟨b, rfl, hb⟩ := sameButStale_iff.mp h
  have hblock : (f s).block = s.block := (congrArg State.block (hf s.block) :)
  refine sameButStale_iff.mpr ⟨b, hf b, fun j hj => ?_⟩
  rw [hblock]
  exact hb j (hj.trans_le hfill)

/-- With a full block there are no stale bytes. -/
theorem State.SameButStale.eq_of_full {s s' : State} (h : s.SameButStale s') (hfull : 64 ≤ s.fill) : s' = s := by
  obtain ⟨hs, hb⟩ := h
  have hblock : s'.block = s.block := by
    ext1 j hj
    exact (hb ⟨j, hj⟩ (hj.trans_le hfull)).symm
  rw [hs, hblock]

/-- The bytes a write lets FILL pass are the ones it has written, the same in both. -/
theorem State.SameButStale.put {s s' : State} (h : s.SameButStale s') (bytes : List Byte) :
    (s.put bytes).SameButStale (s'.put bytes) := by
  obtain ⟨b, rfl, hb⟩ := sameButStale_iff.mp h
  refine sameButStale_iff.mpr ⟨blockPut b s.fill bytes, rfl, fun j hj => ?_⟩
  rw [State.put_fill] at hj
  simp only [State.put_block, Fin.getElem_fin, blockPut_getElem]
  by_cases hj' : s.fill ≤ j
  · rw [if_pos hj', if_pos hj', List.getD_eq_getElem _ _ (by omega), List.getD_eq_getElem _ _ (by omega)]
  · rw [if_neg hj', if_neg hj']
    exact hb j (by omega)

/-- Writing the length field at 56 leaves no stale byte where FILL reached 56. -/
theorem State.SameButStale.putLen_eq {s s' : State} (h : s.SameButStale s') (hfill : 56 ≤ s.fill) :
    s'.putLen = s.putLen := by
  obtain ⟨b, rfl, hb⟩ := sameButStale_iff.mp h
  have hblock : blockPut b 56 (lenBytes s) = blockPut s.block 56 (lenBytes s) := by
    ext1 j hj
    have hlen : (lenBytes s).length = 8 := rfl
    rw [blockPut_getElem _ _ _ _ hj, blockPut_getElem _ _ _ _ hj]
    by_cases hj' : 56 ≤ j
    · rw [if_pos hj', if_pos hj', List.getD_eq_getElem _ _ (by omega), List.getD_eq_getElem _ _ (by omega)]
    · rw [if_neg hj', if_neg hj']
      exact (hb ⟨j, hj⟩ (by simp; omega)).symm
  show { s with block := blockPut b 56 (lenBytes s) } = _
  rw [hblock]
  rfl

theorem State.SameButStale.fill_eq {s s' : State} (h : s.SameButStale s') : s'.fill = s.fill := by rw [h.1]

theorem State.SameButStale.cfg_eq {s s' : State} (h : s.SameButStale s') : s'.cfg = s.cfg := by rw [h.1]

theorem State.SameButStale.refl (s : State) : s.SameButStale s := ⟨rfl, fun _ _ => rfl⟩

/-- A chunk compresses only a full block. -/
theorem State.SameButStale.chunk {s s' : State} (h : s.SameButStale s') (bytes : List Byte) :
    (s.chunk bytes).SameButStale (s'.chunk bytes) := by
  by_cases hfull : s.fill + bytes.length = 64
  · rw [State.chunk_of_full _ _ hfull, State.chunk_of_full _ _ (by rw [h.fill_eq, hfull]),
      (h.put bytes).eq_of_full (by rw [State.put_fill, hfull])]
    exact .refl _
  · rw [State.chunk_of_room _ _ hfull, State.chunk_of_room _ _ (by rwa [h.fill_eq])]
    exact h.put bytes

theorem State.SameButStale.wraps_eq {s s' : State} (h : s.SameButStale s') (k : Nat) :
    wraps k s' = wraps k s := by
  rw [h.1]; rfl

theorem State.SameButStale.absorbLoop {s s' : State} (h : s.SameButStale s') (fuel : Nat) (bs : List Byte) :
    (absorbLoop fuel bs s).SameButStale (absorbLoop fuel bs s') := by
  induction fuel generalizing bs s s' with
  | zero => exact h
  | succ n ih =>
    by_cases hne : bs = []
    · subst hne; exact h
    · have hk : chunkLen bs s' = chunkLen bs s := by rw [chunkLen, h.fill_eq, chunkLen]
      have hchunk := h.chunk (bs.take (chunkLen bs s))
      have hcount := hchunk.map (State.count (chunkLen bs s)) (fun _ => rfl) le_rfl
      by_cases hw : wraps (chunkLen bs s) (s.chunk (bs.take (chunkLen bs s))) = true
      · rw [absorbLoop_wrap _ _ _ hne hw, absorbLoop_wrap _ _ _ hne (by rw [hk, hchunk.wraps_eq, hw]), hk]
        exact hcount.map State.corrupt (fun _ => rfl) le_rfl
      · rw [Bool.not_eq_true] at hw
        rw [absorbLoop_next _ _ _ hne hw, absorbLoop_next _ _ _ hne (by rw [hk, hchunk.wraps_eq, hw]), hk]
        exact ih hcount _

theorem State.le_zeroFill_fill (n : Nat) (s : State) : n ≤ (s.zeroFill n).fill := by
  rw [State.zeroFill, State.put_fill, List.length_replicate]
  omega

theorem State.SameButStale.zeroFill {s s' : State} (h : s.SameButStale s') (n : Nat) :
    (s.zeroFill n).SameButStale (s'.zeroFill n) := by
  rw [State.zeroFill, State.zeroFill, h.fill_eq]
  exact h.put _

/-- The extra block is zero-filled to its end before it is compressed. -/
theorem State.SameButStale.padExtra {s s' : State} (h : s.SameButStale s') :
    s.padExtra.SameButStale s'.padExtra := by
  rw [State.padExtra, State.padExtra, h.fill_eq, h.cfg_eq]
  split
  · rw [(h.zeroFill 64).eq_of_full (s.le_zeroFill_fill 64)]
    exact .refl _
  · exact h

/-- The padding writes every byte from FILL to the end of the block, so what it leaves does not depend on stale bytes. -/
theorem State.SameButStale.pad_eq {s s' : State} (h : s.SameButStale s') : s'.pad = s.pad := by
  rw [State.pad, State.pad,
    ((h.put [0x80]).padExtra.zeroFill 56).putLen_eq (State.le_zeroFill_fill 56 _)]

/-- Two answers a host cannot tell apart, now or later: next states that differ only in stale bytes, or the same refusal. -/
inductive AlikeAnswers : Answer → Answer → Prop
  | next {s s' : State} (h : s.SameButStale s') : AlikeAnswers (.next s) (.next s')
  | refused (r : Refusal) : AlikeAnswers (.refused r) (.refused r)

theorem AlikeAnswers.ite {c : Prop} [Decidable c] {a a' b b' : Answer} (ha : AlikeAnswers a a')
    (hb : AlikeAnswers b b') : AlikeAnswers (if c then a else b) (if c then a' else b') := by
  split
  · exact ha
  · exact hb

theorem State.SameButStale.answer_alike {s s' : State} (h : s.SameButStale s') (v : Word) :
    AlikeAnswers (.next (s.answer v)) (.next (s'.answer v)) :=
  .next (h.map (State.answer v) (fun _ => rfl) le_rfl)

theorem State.SameButStale.recordFault_alike {s s' : State} (h : s.SameButStale s') (r : FaultReason) :
    AlikeAnswers (.next (s.recordFault r)) (.next (s'.recordFault r)) :=
  .next (h.map (State.recordFault r) (fun _ => rfl) le_rfl)

/-- The reset line replaces BLOCK, and keeps the same of both. -/
theorem State.SameButStale.powerOn_alike {s s' : State} (h : s.SameButStale s') :
    AlikeAnswers (.next s.powerOn) (.next s'.powerOn) := by
  obtain ⟨b, rfl, -⟩ := sameButStale_iff.mp h
  exact .next (.refl _)

/-- A view of the context that does not read BLOCK. -/
theorem State.SameButStale.readContext_alike {s s' : State} (h : s.SameButStale s') {view : State → Word}
    (hv : ∀ b, view { s with block := b } = view s) :
    AlikeAnswers (readContext view s) (readContext view s') := by
  obtain ⟨b, rfl, -⟩ := sameButStale_iff.mp h
  rw [readContext, readContext, hv b]
  exact .ite (h.answer_alike _) (h.recordFault_alike _)

theorem State.SameButStale.readData_alike {s s' : State} (h : s.SameButStale s') :
    AlikeAnswers (readData s) (readData s') := by
  obtain ⟨b, rfl, -⟩ := sameButStale_iff.mp h
  exact .ite (h.answer_alike _) (h.recordFault_alike _)

theorem State.SameButStale.readDout_alike {s s' : State} (h : s.SameButStale s') (k : Fin 5) :
    AlikeAnswers (readDout k s) (readDout k s') := by
  obtain ⟨b, rfl, -⟩ := sameButStale_iff.mp h
  exact .ite (h.answer_alike _) (h.recordFault_alike _)

theorem State.SameButStale.absorb_alike {s s' : State} (h : s.SameButStale s') (nb : Nat) :
    AlikeAnswers (absorb nb s) (absorb nb s') := by
  have hloop := h.absorbLoop nb (absorbBytes s.data nb)
  have hcorrupt := h.map State.corrupt (fun _ => rfl) le_rfl
  obtain ⟨b, rfl, -⟩ := sameButStale_iff.mp h
  exact .ite (.refused _) (.ite (h.recordFault_alike _) (.ite (.next h) (.ite (.next hcorrupt)
    (.ite (h.recordFault_alike _) (.next hloop)))))

theorem State.SameButStale.execFinalize_alike {s s' : State} (h : s.SameButStale s') :
    AlikeAnswers (execFinalize s) (execFinalize s') := by
  have hcopy := h.map State.copyOut (fun _ => rfl) le_rfl
  have hfinish : s'.finish = s.finish := by rw [State.finish, h.pad_eq, State.finish]
  rw [execFinalize, execFinalize, hfinish]
  obtain ⟨b, rfl, -⟩ := sameButStale_iff.mp h
  exact .ite (h.recordFault_alike _) (.ite (.next h) (.ite (.next hcopy) (.next (.refl _))))

theorem State.SameButStale.performCmd_alike {s s' : State} (h : s.SameButStale s') (c : Cmd) :
    AlikeAnswers (performCmd c s) (performCmd c s') := by
  cases c with
  | reset => exact .next (h.map State.createContext (fun _ => rfl) (Nat.zero_le _))
  | absorb0 => exact h.absorb_alike 0
  | absorb1 => exact h.absorb_alike 1
  | absorb2 => exact h.absorb_alike 2
  | absorb3 => exact h.absorb_alike 3
  | absorb4 => exact h.absorb_alike 4
  | finalize => exact h.execFinalize_alike

theorem State.SameButStale.execWrCmd_alike {s s' : State} (h : s.SameButStale s') (v : Word) :
    AlikeAnswers (execWrCmd v s) (execWrCmd v s') := by
  rw [execWrCmd, execWrCmd]
  cases decodeCmd v with
  | ok c => exact h.performCmd_alike c
  | error r => exact .refused _

theorem State.SameButStale.loadDout_alike {s s' : State} (h : s.SameButStale s') (k : Fin 5) (v : Word) :
    AlikeAnswers (.next (s.loadDout k v)) (.next (s'.loadDout k v)) :=
  .next (h.map (State.loadDout k v) (fun _ => rfl) le_rfl)

/-- No instruction lets a stale byte through, over all rows of the table. -/
theorem State.SameButStale.exec_alike {s s' : State} (h : s.SameButStale s') (i : Instr) :
    AlikeAnswers (exec i s) (exec i s') := by
  cases i with
  | wrCmd v => exact h.execWrCmd_alike v
  | wrData v => exact .next (h.map (State.loadData v) (fun _ => rfl) le_rfl)
  | rdData => exact h.readData_alike
  | rdStatus | rdLenlo | rdLenhi => exact h.readContext_alike fun _ => rfl
  | rdH0 => exact h.readContext_alike (view := fun s => s.h[0]) fun _ => rfl
  | rdH1 => exact h.readContext_alike (view := fun s => s.h[1]) fun _ => rfl
  | rdH2 => exact h.readContext_alike (view := fun s => s.h[2]) fun _ => rfl
  | rdH3 => exact h.readContext_alike (view := fun s => s.h[3]) fun _ => rfl
  | rdH4 => exact h.readContext_alike (view := fun s => s.h[4]) fun _ => rfl
  | rdDout0 => exact h.readDout_alike 0
  | rdDout1 => exact h.readDout_alike 1
  | rdDout2 => exact h.readDout_alike 2
  | rdDout3 => exact h.readDout_alike 3
  | rdDout4 => exact h.readDout_alike 4
  | wrDout0 v => exact h.loadDout_alike 0 v
  | wrDout1 v => exact h.loadDout_alike 1 v
  | wrDout2 v => exact h.loadDout_alike 2 v
  | wrDout3 v => exact h.loadDout_alike 3 v
  | wrDout4 v => exact h.loadDout_alike 4 v
  | reset => exact h.performCmd_alike .reset
  | absorb0 => exact h.performCmd_alike .absorb0
  | absorb1 => exact h.performCmd_alike .absorb1
  | absorb2 => exact h.performCmd_alike .absorb2
  | absorb3 => exact h.performCmd_alike .absorb3
  | absorb4 => exact h.performCmd_alike .absorb4
  | finalize => exact h.performCmd_alike .finalize

theorem State.SameButStale.performAccess_alike {s s' : State} (h : s.SameButStale s') (a : Access) :
    AlikeAnswers (performAccess exec a s) (performAccess exec a s') := by
  cases hd : decodeAccess a with
  | ok i =>
    rw [performAccess_of_ok hd, performAccess_of_ok hd]
    exact h.exec_alike i
  | error r =>
    rw [performAccess_of_error hd, performAccess_of_error hd]
    exact .refused _

theorem State.SameButStale.step_alike {s s' : State} (h : s.SameButStale s') : AlikeAnswers (step s) (step s') := by
  have hpop (rest : List HostEvent) := h.map (State.popEvent rest) (fun _ => rfl) le_rfl
  have hpending : s'.pending = s.pending := by rw [h.1]
  rw [step, step, runStep, runStep, h.cfg_eq, hpending]
  refine .ite (.refused _) ?_
  match s.pending with
  | [] => exact .next h
  | .resetLine :: rest => exact (hpop rest).powerOn_alike
  | .access a :: rest => exact (hpop rest).performAccess_alike a

theorem AlikeAnswers.of_next {t : State} {a : Answer} (h : AlikeAnswers (.next t) a) :
    ∃ t', a = .next t' ∧ t.SameButStale t' := by
  cases h with
  | next ht => exact ⟨_, rfl, ht⟩

theorem AlikeAnswers.of_refused {r : Refusal} {a : Answer} (h : AlikeAnswers (.refused r) a) : a = .refused r := by
  cases h with
  | refused => rfl

/-- Settles O43: only a compression reads BLOCK, and by then every byte is below FILL or has been written over; the invariant
is not needed. -/
theorem staleBlockBytesNeverMatter : Obligations.StaleBlockBytesNeverMatter :=
  fun _ _ _ h => ⟨fun _ ht => (ht ▸ h.step_alike).of_next, fun _ hr => (hr ▸ h.step_alike).of_refused⟩

end Sys2Proof.Machine

namespace Sys2Proof.Machine

/-! ### Accesses the spec gives no meaning (R54, R121, R122)

Each check of R123: what it refuses, where the checks before it have passed. -/

theorem checkAccess_width {a : Access} (hs : a.size ≠ 4) : checkAccess a = some .accessWidth :=
  if_pos hs

theorem checkAccess_misaligned {a : Access} (hs : a.size = 4) (hoff : a.off.toNat % 4 ≠ 0) :
    checkAccess a = some .misaligned := by
  simp [checkAccess, hs, hoff]

theorem checkAccess_reservedOffset {a : Access} (hs : a.size = 4) (h4 : a.off.toNat % 4 = 0)
    (hoff : 0x3C ≤ a.off.toNat) : checkAccess a = some .reservedOffset := by
  simp [checkAccess, hs, h4, hoff]

theorem checkAccess_readOfWriteOnly {a : Access} (hs : a.size = 4) (hoff : a.off.toNat = 0x00)
    (hd : a.dir = .read) : checkAccess a = some .readOfWriteOnly := by
  simp [checkAccess, hs, hoff, hd]

theorem checkAccess_writeOfReadOnly {a : Access} (hs : a.size = 4) (h4 : a.off.toNat % 4 = 0)
    (hlo : 0x08 ≤ a.off.toNat) (hhi : a.off.toNat ≤ 0x24) (hd : a.dir = .write) :
    checkAccess a = some .writeOfReadOnly := by
  have hres : ¬ 0x3C ≤ a.off.toNat := by omega
  simp [checkAccess, hs, h4, hres, hlo, hhi, hd]

/-- A check that fails ends the step in the refusal of its name. -/
theorem step_of_checkAccess {s : State} {a : Access} {rest : List HostEvent} {r : Reject}
    (hc : paramsOk s.cfg = true) (hp : s.pending = .access a :: rest) (h : checkAccess a = some r) :
    step s = .refused (Refusal.ofReject r) := by
  rw [step_access hc hp, performAccess_of_error (decodeAccess_of_check h)]

/-- Settles O35: in each clause the access fails the check of that name, and those before it pass. -/
theorem stepRefusesReservedAccess : Obligations.StepRefusesReservedAccess := fun _ _ _ hc hp =>
  ⟨fun hs => step_of_checkAccess hc hp (checkAccess_width hs),
    fun hs hoff => step_of_checkAccess hc hp (checkAccess_misaligned hs hoff),
    fun hs h4 hoff => step_of_checkAccess hc hp (checkAccess_reservedOffset hs h4 hoff),
    fun hs hoff hd => step_of_checkAccess hc hp (checkAccess_readOfWriteOnly hs hoff hd),
    fun hs h4 hlo hhi hd => step_of_checkAccess hc hp (checkAccess_writeOfReadOnly hs h4 hlo hhi hd)⟩

/-! ### Side effects of reads and writes (20_memory.md R56) -/

/-- A read made again at once: it returned a value and returns the same one, or it recorded a fault and records the same one;
neither does anything else. -/
def RepeatsItself (read : State → Answer) : Prop :=
  ∀ s t, read s = .next t →
    (∃ v, t = s.answer v ∧ read t = .next (t.answer v)) ∨ ∃ r, t = s.recordFault r ∧ read t = .next (t.recordFault r)

theorem readContext_repeatsItself {view : State → Word} (hv : ∀ s v, view (s.answer v) = view s) :
    RepeatsItself (readContext view) := by
  intro s t h
  obtain ⟨hi, rfl⟩ | ⟨hi, rfl⟩ := readContext_next h
  · refine .inl ⟨_, rfl, ?_⟩
    rw [readContext, if_pos (by exact hi), hv]
  · exact .inr ⟨_, rfl, readContext_of_uninit hi⟩

theorem readData_repeatsItself : RepeatsItself readData := by
  intro s t h
  obtain ⟨hw, rfl⟩ | ⟨hw, rfl⟩ := readData_next h
  · exact .inl ⟨_, rfl, if_pos hw⟩
  · exact .inr ⟨_, rfl, readData_of_unwritten hw⟩

theorem readDout_repeatsItself (k : Fin 5) : RepeatsItself (readDout k) := by
  intro s t h
  obtain ⟨hw, rfl⟩ | ⟨hw, rfl⟩ := readDout_next h
  · exact .inl ⟨_, rfl, if_pos hw⟩
  · exact .inr ⟨_, rfl, readDout_of_unwritten hw⟩

/-- No view of the context shows what reads have returned. -/
theorem viewOf_answer {i : Instr} {view : State → Word} (h : viewOf i = some view) (s : State) (v : Word) :
    view (s.answer v) = view s := by
  cases i <;> cases h <;> rfl

theorem readRows_cases : ∀ i ∈ readRows,
    i = .rdData ∨ (viewOf i).isSome = true ∨ ∃ k : Fin 5, i = rdDoutRow k := by
  decide

theorem exec_readRow_repeatsItself {i : Instr} (h : i ∈ readRows) : RepeatsItself (exec i) := by
  obtain rfl | hview | ⟨k, rfl⟩ := readRows_cases i h
  · exact readData_repeatsItself
  · obtain ⟨view, hv⟩ := Option.isSome_iff_exists.mp hview
    rw [funext (exec_of_viewOf hv)]
    exact readContext_repeatsItself (viewOf_answer hv)
  · rw [funext (exec_rdDoutRow k)]
    exact readDout_repeatsItself k

theorem State.answer_answer (v : Word) (s : State) :
    (s.answer v).answer v = { s with returned := s.returned ++ [v, v] } := by
  simp [State.answer]

theorem State.recordFault_recordFault (r : FaultReason) (s : State) :
    (s.recordFault r).recordFault r = { s with faults := s.faults ++ [r, r] } := by
  simp [State.recordFault]

theorem State.loadDout_of_ne {k j : Fin 5} (h : j ≠ k) (v : Word) (s : State) :
    (s.loadDout k v).dout[j] = s.dout[j] ∧ (s.loadDout k v).writtenDout[j] = s.writtenDout[j] := by
  have hne : (k : Nat) ≠ j := fun e => h (Fin.ext e.symm)
  exact ⟨Vector.getElem_set_ne k.isLt j.isLt hne, Vector.getElem_set_ne k.isLt j.isLt hne⟩

/-- What no instruction writes that performs no command. -/
theorem exec_frame_of_commandOf_none {i : Instr} {s t : State} (hc : commandOf i = none) (h : exec i s = .next t) :
    t = { s with data := t.data, writtenData := t.writtenData, dout := t.dout, writtenDout := t.writtenDout,
                 returned := t.returned, faults := t.faults } := by
  obtain ⟨-, ⟨v, rfl⟩ | ⟨r, rfl⟩⟩ | ⟨v, -, rfl⟩ | ⟨k, v, -, rfl⟩ | ⟨c, hc', -⟩ := exec_next h
  · rfl
  · rfl
  · rfl
  · rfl
  · rw [hc] at hc'
    cases hc'

/-- An `ABSORB 1` that leaves room in the block, through `CMD`: one byte is counted, and the context can take another. -/
theorem exec_wrCmd_absorb1 {s : State} (ho : s.Open) (hw : s.writtenData = true) (hmax : 1 ≤ s.cfg.dataBytesMax)
    (hf : s.fill < 63) (hl : s.len + 8 < 2 ^ 64) :
    ∃ t, exec (.wrCmd 0x00000012) s = .next t ∧ t.Open ∧ t.writtenData = true ∧ t.cfg = s.cfg ∧
      t.fill = s.fill + 1 ∧ t.len = s.len + 8 := by
  have hexec : exec (.wrCmd 0x00000012) s = exec (absorbRow 1) s := execWrCmd_of_ok rfl s
  obtain ⟨hroom, -, -⟩ := exec_absorbRow_shape (nb := 1) (by simp) ho hw hmax (by omega) (by omega)
  refine ⟨_, hexec.trans (hroom (by omega)), ho, hw, rfl, ?_, ?_⟩
  · rw [State.count_fill, State.put_fill, absorbBytes_length _ (by omega)]
  · rw [State.count_len _ _ (by omega)]
    exact Nat.mod_eq_of_lt hl

/-- Settles O11: the inversion of exec for what is left unchanged, and an `ABSORB 1` written twice for the write to `CMD`. -/
theorem onlyCommandsChangeTheContext : Obligations.OnlyCommandsChangeTheContext := by
  refine ⟨fun i hi s t h => ?_, fun s t v h => ?_, fun s t k v h => ?_,
    fun _ _ _ => exec_frame_of_commandOf_none, ?_⟩
  · obtain ⟨v, rfl, h2⟩ | ⟨r, rfl, h2⟩ := exec_readRow_repeatsItself hi s t h
    · exact .inl ⟨v, rfl, State.answer_answer v s ▸ h2⟩
    · exact .inr ⟨r, rfl, State.recordFault_recordFault r s ▸ h2⟩
  · cases h
    rfl
  · rw [exec_wrDoutRow] at h
    cases h
    exact ⟨rfl, fun j hj => State.loadDout_of_ne hj v s⟩
  · obtain ⟨s, ho, hw, hmax, hf, hl⟩ : ∃ s : State,
        s.Open ∧ s.writtenData = true ∧ 1 ≤ s.cfg.dataBytesMax ∧ s.fill = 0 ∧ s.len = 0 :=
      ⟨State.reset.createContext.loadData 0, ⟨rfl, rfl, rfl⟩, rfl, by decide, rfl, rfl⟩
    obtain ⟨t, ht, hot, hwt, hct, hft, hlt⟩ := exec_wrCmd_absorb1 ho hw hmax (by omega) (by omega)
    obtain ⟨u, hu, -, -, -, -, hlu⟩ := exec_wrCmd_absorb1 hot hwt (hct ▸ hmax) (by omega) (by omega)
    exact ⟨s, t, u, ht, hu, hlu, hlt⟩

/-! ### The windows of a system (20_memory.md R51) -/

theorem le_of_routeFrom {w n m addr : Nat} {bases : List Nat} (h : routeFrom w n bases addr = some m) :
    n ≤ m := by
  induction bases generalizing n with
  | nil => cases h
  | cons b bs ih =>
    rw [routeFrom] at h
    split at h
    · cases h
      exact le_rfl
    · exact Nat.le_of_succ_le (ih h)

/-- Windows of at most 256 bytes at different 256-byte-aligned bases do not overlap, so the first window that holds an address
is the only one. -/
theorem routeFrom_eq_some_iff {w n k base off : Nat} {bases : List Nat} (hw : w ≤ 256)
    (halign : ∀ b ∈ bases, b % 256 = 0) (hnodup : bases.Nodup) (hk : bases[k]? = some base) (hoff : off < 256) :
    routeFrom w n bases (base + off) = some (n + k) ↔ off < w := by
  induction bases generalizing n k with
  | nil => cases hk
  | cons b bs ih =>
    obtain ⟨hb, halign'⟩ := List.forall_mem_cons.mp halign
    obtain ⟨hnotin, hnodup'⟩ := List.nodup_cons.mp hnodup
    rw [routeFrom]
    cases k with
    | zero =>
      obtain rfl : b = base := Option.some.inj hk
      split
      case isTrue h => exact iff_of_true rfl (by omega)
      case isFalse h => exact iff_of_false (fun hr => absurd (le_of_routeFrom hr) (by omega)) (by omega)
    | succ k =>
      have hmem : base ∈ bs := List.mem_of_getElem? hk
      have hbase : base % 256 = 0 := halign' base hmem
      have hne : b ≠ base := fun e => hnotin (e ▸ hmem)
      rw [if_neg (by omega), ← ih (n := n + 1) halign' hnodup' hk, Nat.add_right_comm n 1 k, Nat.add_assoc]

theorem System.basesOk_aligned {sys : System} (h : sys.basesOk = true) :
    (∀ b ∈ sys.bases, b % 256 = 0) ∧ sys.bases.Nodup := by
  simp only [System.basesOk, Bool.and_eq_true, List.all_eq_true, decide_eq_true_eq] at h
  obtain ⟨⟨-, halign⟩, hnodup⟩ := h
  exact ⟨halign, hnodup⟩

/-- Settles O48: the windows do not overlap, and an offset below 256 fits in the 8 bits of `OFF`. -/
theorem windowAddressReachesItsInstance : Obligations.WindowAddressReachesItsInstance := by
  refine fun sys k base off a => ⟨rfl, fun hok hk hoff haddr => ⟨?_, ?_, rfl, rfl, rfl⟩⟩
  · obtain ⟨halign, hnodup⟩ := sys.basesOk_aligned hok
    have hroute := routeFrom_eq_some_iff (n := 0) (Nat.min_le_right sys.regWindow 256) halign hnodup hk hoff
    rw [Nat.zero_add] at hroute
    rw [haddr, System.route, System.reach, hroute]
    omega
  · show (BitVec.ofNat 8 (a.addr - base)).toNat = off
    rw [haddr, Nat.add_sub_cancel_left, BitVec.toNat_ofNat, Nat.mod_eq_of_lt hoff]

/-! ### Accesses to different engines (20_memory.md R59) -/

/-- Engine `k` and agent `j` replaced. -/
def System.replace (sys : System) (k j : Nat) (e : State) (ag : Agent) : System :=
  { sys with engines := sys.engines.set k e, agents := sys.agents.set j ag }

/-- Everything an access of agent `j` to engine `k` looks at is the same in both systems. -/
structure System.AgreeAt (k j : Nat) (sys t : System) : Prop where
  regWindow : t.regWindow = sys.regWindow
  bases : t.bases = sys.bases
  engine : t.engines[k]? = sys.engines[k]?
  agent : t.agents[j]? = sys.agents[j]?

theorem System.AgreeAt.refl (k j : Nat) (sys : System) : AgreeAt k j sys sys := ⟨rfl, rfl, rfl, rfl⟩

theorem System.AgreeAt.symm {k j : Nat} {sys t : System} (h : AgreeAt k j sys t) : AgreeAt k j t sys :=
  ⟨h.regWindow.symm, h.bases.symm, h.engine.symm, h.agent.symm⟩

theorem System.AgreeAt.route_eq {k j : Nat} {sys t : System} (h : AgreeAt k j sys t) (addr : Nat) :
    t.route addr = sys.route addr := by
  rw [System.route, System.reach, h.regWindow, h.bases, System.route, System.reach]

theorem System.agreeAt_replace {i j k l : Nat} (hij : i ≠ j) (hkl : k ≠ l) (sys : System) (e : State) (ag : Agent) :
    AgreeAt l j sys (sys.replace k i e ag) :=
  ⟨rfl, rfl, List.getElem?_set_ne hkl, List.getElem?_set_ne hij⟩

theorem System.replace_comm {i j k l : Nat} (hij : i ≠ j) (hkl : k ≠ l) (sys : System) (e f : State) (ag ah : Agent) :
    (sys.replace k i e ag).replace l j f ah = (sys.replace l j f ah).replace k i e ag := by
  simp only [System.replace, List.set_comm _ _ hkl, List.set_comm _ _ hij]

/-- An access that no engine answers, as a replacement that changes no engine. -/
theorem System.passedBy_eq_replace (sys : System) (k j : Nat) (ag : Agent) :
    sys.passedBy j ag = sys.replace k j (sys.engines[k]?.getD State.reset) (ag.advance []) := by
  have hset : sys.engines.set k (sys.engines[k]?.getD State.reset) = sys.engines := by
    by_cases hk : k < sys.engines.length
    · rw [List.getElem?_eq_getElem hk, Option.getD_some, List.set_getElem_self]
    · exact List.set_eq_of_length_le (Nat.le_of_not_lt hk)
  rw [System.replace, hset, System.passedBy]

theorem System.step_eq_access {sys : System} {j : Nat} {ag : Agent} {a : HostAccess} {rest : List HostAccess}
    (hag : sys.agents[j]? = some ag) (hp : ag.program = a :: rest) : sys.step j = sys.access j ag a := by
  simp only [System.step, hag, hp]

/-- An access that a system answers replaces its engine and its agent, by what only the engine, its base and the agent
determine. -/
theorem System.access_next {sys sys' : System} {j k : Nat} {ag : Agent} {a : HostAccess}
    (hr : sys.route a.addr = some k) (h : sys.access j ag a = .next sys') :
    ∃ e ag', ∀ t, AgreeAt k j sys t → t.access j ag a = .next (t.replace k j e ag') := by
  simp only [System.access, hr] at h
  split at h
  case h_1 e base he hb =>
    cases hs : serve (a.atBase base) e with
    | next e' =>
      refine ⟨e', ag.advance (e'.returned.drop e.returned.length), fun t ht => ?_⟩
      simp only [System.access, ht.route_eq, hr, ht.engine, he, ht.bases, hb, hs]
      rfl
    | fault f => cases f
    | refused r => rw [hs] at h; cases h
  case h_2 hnone =>
    refine ⟨sys.engines[k]?.getD State.reset, ag.advance [], fun t ht => ?_⟩
    rw [← ht.engine, ← t.passedBy_eq_replace]
    simp only [System.access, ht.route_eq, hr, ht.engine, ht.bases]

theorem System.step_next {sys sys' : System} {j k : Nat} {ag : Agent} {a : HostAccess} {rest : List HostAccess}
    (hag : sys.agents[j]? = some ag) (hp : ag.program = a :: rest) (hr : sys.route a.addr = some k)
    (h : sys.step j = .next sys') :
    ∃ e ag', ∀ t, AgreeAt k j sys t → t.step j = .next (t.replace k j e ag') := by
  rw [step_eq_access hag hp] at h
  obtain ⟨e, ag', hloc⟩ := System.access_next hr h
  exact ⟨e, ag', fun t ht => (step_eq_access (ht.agent.trans hag) hp).trans (hloc t ht)⟩

/-- Settles O50: each access replaces its own engine and agent by what the other access does not touch, and replacements at
different places commute. -/
theorem accessesToDifferentInstancesCommute : Obligations.AccessesToDifferentInstancesCommute := by
  intro sys s1 s12 i j k l agi agj a b ra rb hij hkl hi hpi hri hj hpj hrj h1 h12
  obtain ⟨e, agi', hstepi⟩ := System.step_next hi hpi hri h1
  obtain rfl : s1 = sys.replace k i e agi' :=
    Host.Outcome.next.inj (h1.symm.trans (hstepi sys (.refl k i sys)))
  have hagree := sys.agreeAt_replace hij hkl e agi'
  obtain ⟨f, agj', hstepj⟩ :=
    System.step_next (hagree.agent.trans hj) hpj ((hagree.route_eq _).trans hrj) h12
  obtain rfl : s12 = (sys.replace k i e agi').replace l j f agj' :=
    Host.Outcome.next.inj (h12.symm.trans (hstepj _ (.refl l j _)))
  refine ⟨sys.replace l j f agj', hstepj sys hagree.symm, ?_⟩
  rw [hstepi _ (sys.agreeAt_replace hij.symm hkl.symm f agj'), System.replace_comm hij hkl]

end Sys2Proof.Machine

namespace Sys2Proof.Machine

/-! ### CMD words (30_encoding.md R72, R74) -/

/-- Settles O33: each word is closed, and so is what it spells. -/
theorem sampleWordsDecode : Obligations.SampleWordsDecode := by
  unfold Obligations.SampleWordsDecode
  decide

theorem decodeCmd_of_rsv_ne_zero {v : Word} (h : cmdRsv v ≠ 0) : decodeCmd v = .error .reservedCmd :=
  if_pos h

/-- A word whose `RSV` is 0 is one of 128. -/
theorem exists_ofNat_of_rsv_eq_zero {v : Word} (h : cmdRsv v = 0) : ∃ n : Fin 128, v = BitVec.ofNat 32 n := by
  have hlt : v.toNat < 128 := by unfold cmdRsv at h; omega
  exact ⟨⟨v.toNat, hlt⟩, BitVec.eq_of_toNat_eq (by simp)⟩

/-- Settles O30: with `RSV` nonzero the word is none of the ten named, and with `RSV` 0 it is one of 128. -/
theorem exactlySevenCommandWords : Obligations.ExactlySevenCommandWords := by
  intro v
  by_cases hrsv : cmdRsv v = 0
  · obtain ⟨n, rfl⟩ := exists_ofNat_of_rsv_eq_zero hrsv
    revert n
    decide +kernel
  · rw [decodeCmd_of_rsv_ne_zero hrsv]
    have hne (u : Word) (hu : cmdRsv u = 0) : v ≠ u := fun e => hrsv (e ▸ hu)
    simp [hne, cmdRsv]

theorem decodeAbsorb_ok_iff : ∀ nb, (∃ c, decodeAbsorb nb = .ok c) ↔ nb ≤ 4
  | 0 | 1 | 2 | 3 | 4 => iff_of_true ⟨_, rfl⟩ (by decide)
  | _ + 5 => iff_of_false nofun (by omega)

theorem cmdWordAdmitted_iff (v : Word) :
    cmdWordAdmitted v = true ↔ cmdRsv v = 0 ∧
      (cmdOp v = 1 ∧ cmdNb v = 0 ∨ cmdOp v = 2 ∧ cmdNb v ≤ 4 ∨ cmdOp v = 3 ∧ cmdNb v = 0) := by
  simp [cmdWordAdmitted, cmdRsv, cmdOp, cmdNb, or_assoc]

/-- Settles O31: R74's tests, in its order, against the same tests as one condition. -/
theorem wellFormedWriteIsAdmittedWord : Obligations.WellFormedWriteIsAdmittedWord := by
  intro v
  rw [Instr.wellFormed, cmdWordAdmitted_iff, decodeCmd]
  split_ifs with hrsv hreset habsorb hfinalize
  · exact iff_of_false (fun h => hrsv h.1) nofun
  · exact iff_of_true ⟨not_not.mp hrsv, .inl hreset⟩ ⟨_, rfl⟩
  · rw [decodeAbsorb_ok_iff, not_not.mp hrsv]
    simp [habsorb]
  · exact iff_of_true ⟨not_not.mp hrsv, .inr (.inr hfinalize)⟩ ⟨_, rfl⟩
  · exact iff_of_false (fun h => h.2.elim hreset (·.elim (fun h2 => habsorb h2.1) hfinalize)) nofun

/-! ### The table's words (30_encoding.md R80) -/

theorem encode_of_readRow {n : Nat} {i : Instr} (h : readRow n = some i) : encode i = encodeRead n := by
  unfold readRow at h
  split at h <;> cases h <;> rfl

theorem encode_of_writeRow {n : Nat} {v : Word} {i : Instr} (h : writeRow v n = some i) :
    encode i = encodeWrite n v := by
  unfold writeRow at h
  split at h <;> cases h <;> rfl

/-- An access that decodes passes the checks and is decoded by its row. -/
theorem decodeAccess_ok {a : Access} {i : Instr} (h : decodeAccess a = .ok i) :
    checkAccess a = none ∧ accessRow a = some i := by
  unfold decodeAccess at h
  split at h
  · cases h
  · split at h <;> cases h
    exact ⟨‹_›, ‹_›⟩

theorem encode_of_decodeAccess_read {a : Access} {i : Instr} (h : decodeAccess a = .ok i) (hd : a.dir = .read) :
    encode i = encodeRead a.off.toNat := by
  obtain ⟨-, hrow⟩ := decodeAccess_ok h
  rw [accessRow, hd] at hrow
  exact encode_of_readRow hrow

theorem encode_of_decodeAccess_write {a : Access} {i : Instr} (h : decodeAccess a = .ok i) (hd : a.dir = .write) :
    encode i = encodeWrite a.off.toNat a.val := by
  obtain ⟨-, hrow⟩ := decodeAccess_ok h
  rw [accessRow, hd] at hrow
  exact encode_of_writeRow hrow

theorem encode_of_decodeCmd {v : Word} {c : Cmd} (h : decodeCmd v = .ok c) : encode c.instr = ⟨32, v.toNat⟩ := by
  rw [exactlySevenCommandWords v] at h
  split_ifs at h with h1 h2 h3 h4 h5 h6 h7 <;> cases h <;> subst v <;> rfl

theorem decodeCmdRow_some {w : Nat} {i : Instr} (h : decodeCmdRow w = some i) :
    w < 2 ^ 32 ∧ ∃ c, decodeCmd (BitVec.ofNat 32 w) = .ok c ∧ c.instr = i := by
  unfold decodeCmdRow at h
  split at h
  · split at h <;> cases h
    exact ⟨‹_›, _, ‹_›, rfl⟩
  · cases h

theorem decodeBusRow_some {w : Nat} {i : Instr} (h : decodeBusRow w = some i) :
    w / 2 ^ 9 % 2 ^ 7 = 0 ∧ w < 2 ^ 48 ∧ decodeAccess (busAccess w) = .ok i := by
  unfold decodeBusRow at h
  split at h
  · cases h
  · split at h <;> cases h
    exact ⟨by omega, by omega, ‹_›⟩

theorem encode_of_decodeCmdRow {w : Nat} {i : Instr} (h : decodeCmdRow w = some i) : encode i = ⟨32, w⟩ := by
  obtain ⟨hw, c, hc, rfl⟩ := decodeCmdRow_some h
  rw [encode_of_decodeCmd hc, BitVec.toNat_ofNat, Nat.mod_eq_of_lt hw]

/-- A bus pattern is `OFF`, `DIR` and the value side by side: bit 8 tells a write, which encodes to the whole word, from a read,
which encodes to the pattern alone. -/
theorem encode_of_decodeBusRow {w : Nat} {i : Instr} (h : decodeBusRow w = some i) :
    encode i = ⟨48, w⟩ ∨ encode i = ⟨16, w % 2 ^ 16⟩ := by
  obtain ⟨hgap, hw, ha⟩ := decodeBusRow_some h
  have hbit : w.testBit 8 = decide (w / 2 ^ 8 % 2 = 1) := Nat.testBit_eq_decide_div_mod_eq
  by_cases h8 : w.testBit 8 = true
  · have hdir : (busAccess w).dir = .write := if_pos h8
    rw [hbit, decide_eq_true_eq] at h8
    left
    rw [encode_of_decodeAccess_write ha hdir, encodeWrite, busAccess, BitVec.toNat_ofNat, BitVec.toNat_ofNat]
    congr 1
    omega
  · have hdir : (busAccess w).dir = .read := if_neg h8
    rw [hbit, decide_eq_true_eq] at h8
    right
    rw [encode_of_decodeAccess_read ha hdir, encodeRead, busAccess, BitVec.toNat_ofNat]
    congr 1
    omega

/-- Settles O29: a CMD word by R74's seven words, a bus word by the row its access decodes to. -/
theorem eachWordSpellsOneInstruction : Obligations.EachWordSpellsOneInstruction := by
  refine ⟨fun w i _ h => encode_of_decodeCmdRow h, fun w i hw h => ?_, fun w i _ _ h => ?_⟩
  · obtain he | he := encode_of_decodeBusRow h
    · rw [he]
    · rw [he]
      exact Nat.mod_eq_of_lt hw
  · obtain he | he := encode_of_decodeBusRow h
    · exact .inl (by rw [he])
    · exact .inr (by simp [he])

/-! ### Encoding and decoding back (30_encoding.md R80) -/

/-- A write at an offset that is not read-only decodes to its row. -/
theorem decodeAccess_write {off : BitVec 8} {v : Word} {i : Instr}
    (h : off.toNat % 4 = 0 ∧ (off.toNat < 0x08 ∨ 0x24 < off.toNat) ∧ off.toNat < 0x3C)
    (hrow : writeRow v off.toNat = some i) : decodeAccess ⟨.write, off, 4, v⟩ = .ok i := by
  obtain ⟨h4, hro, hlt⟩ := h
  refine decodeAccess_of_row ?_ hrow
  simp only [checkAccess]
  rw [if_neg (by decide), if_neg (by omega), if_neg (by omega), if_neg (by simp), if_neg (by simp; omega)]

/-- What O28 says of one instruction. -/
def DecodesBack (i : Instr) : Prop :=
  decodeTableWord (encode i).nbits (encode i).word = some i ∧
    (decodeAccess i.access = .ok i ∨
      ∃ v c, decodeAccess i.access = .ok (.wrCmd v) ∧ decodeCmd v = .ok c ∧ c.instr = i)

/-- A bus write decodes back: both its table word and its access are the write at its offset. -/
theorem decodesBack_write {p : Nat} {v : Word} {i : Instr} (henc : encode i = encodeWrite p v)
    (hoff : p % 4 = 0 ∧ (p < 0x08 ∨ 0x24 < p) ∧ p < 0x3C) (hrow : writeRow v p = some i) : DecodesBack i := by
  have hp : p < 256 := by omega
  have htoNat : (BitVec.ofNat 8 p).toNat = p := by rw [BitVec.toNat_ofNat]; exact Nat.mod_eq_of_lt hp
  have hdec : decodeAccess ⟨.write, BitVec.ofNat 8 p, 4, v⟩ = .ok i :=
    decodeAccess_write (by rwa [htoNat]) (by rwa [htoNat])
  have haccess : i.access = ⟨.write, BitVec.ofNat 8 p, 4, v⟩ := by
    rw [Instr.access, henc]
    exact busAccess_write p hp v
  refine ⟨?_, .inl (haccess ▸ hdec)⟩
  rw [henc]
  exact (decodeTableWord_write p hp v).trans (by rw [hdec]; rfl)

/-- A command decodes back: its word does, and its access is a write to `CMD` of that word. -/
theorem decodesBack_cmd {c : Cmd} {v : Word} (henc : encode c.instr = ⟨32, v.toNat⟩) (hc : decodeCmd v = .ok c) :
    DecodesBack c.instr := by
  have hv : BitVec.ofNat 32 v.toNat = v := BitVec.eq_of_toNat_eq (by simp)
  have haccess : c.instr.access = ⟨.write, 0x00, 4, v⟩ := by
    rw [Instr.access, henc, tableAccess, if_pos rfl, cmdAccess, hv]
  refine ⟨?_, .inr ⟨v, c, haccess ▸ decodeAccess_write (by decide) rfl, hc, rfl⟩⟩
  rw [henc, decodeTableWord, if_pos rfl, decodeCmdRow, if_pos v.isLt, hv, hc]

/-- Settles O28: the words of the reads are closed, those of the writes and of the commands decode by their formats.
The word of a write to `CMD` may be any. -/
theorem encodedInstructionDecodesBack : Obligations.EncodedInstructionDecodesBack := by
  intro i _
  show DecodesBack i
  cases i with
  | wrCmd v | wrData v | wrDout0 v | wrDout1 v | wrDout2 v | wrDout3 v | wrDout4 v =>
    exact decodesBack_write rfl (by decide) rfl
  | rdData | rdStatus | rdLenlo | rdLenhi | rdH0 | rdH1 | rdH2 | rdH3 | rdH4
  | rdDout0 | rdDout1 | rdDout2 | rdDout3 | rdDout4 => exact ⟨by decide, .inl rfl⟩
  | reset => exact decodesBack_cmd (c := .reset) (v := 0x01) rfl rfl
  | absorb0 => exact decodesBack_cmd (c := .absorb0) (v := 0x02) rfl rfl
  | absorb1 => exact decodesBack_cmd (c := .absorb1) (v := 0x12) rfl rfl
  | absorb2 => exact decodesBack_cmd (c := .absorb2) (v := 0x22) rfl rfl
  | absorb3 => exact decodesBack_cmd (c := .absorb3) (v := 0x32) rfl rfl
  | absorb4 => exact decodesBack_cmd (c := .absorb4) (v := 0x42) rfl rfl
  | finalize => exact decodesBack_cmd (c := .finalize) (v := 0x03) rfl rfl

end Sys2Proof.Machine

namespace Sys2Proof.Machine

/-! ### The queue and the access rules -/

/-- An answer with the pending events of its next state replaced. -/
def popAnswer (rest : List HostEvent) : Answer → Answer
  | .next s => .next (s.popEvent rest)
  | .fault f => .fault f
  | .refused r => .refused r

@[simp] theorem popAnswer_next (rest : List HostEvent) (s : State) :
    popAnswer rest (.next s) = .next (s.popEvent rest) := rfl

theorem State.chunk_popEvent (rest : List HostEvent) (bs : List Byte) (s : State) :
    (s.popEvent rest).chunk bs = (s.chunk bs).popEvent rest := by
  by_cases h : s.fill + bs.length = 64
  · rw [State.chunk_of_full bs s h, State.chunk_of_full bs (s.popEvent rest) h]
    rfl
  · rw [State.chunk_of_room bs s h, State.chunk_of_room bs (s.popEvent rest) h]
    rfl

theorem absorbLoop_popEvent (rest : List HostEvent) (fuel : Nat) (bs : List Byte) (s : State) :
    absorbLoop fuel bs (s.popEvent rest) = (absorbLoop fuel bs s).popEvent rest := by
  induction fuel generalizing bs s with
  | zero => rfl
  | succ n ih =>
    by_cases hne : bs = []
    · subst hne; rfl
    · have hk : chunkLen bs (s.popEvent rest) = chunkLen bs s := rfl
      have hchunk := s.chunk_popEvent rest (bs.take (chunkLen bs s))
      by_cases hw : wraps (chunkLen bs s) (s.chunk (bs.take (chunkLen bs s))) = true
      · rw [absorbLoop_wrap _ _ _ hne hw, absorbLoop_wrap _ _ _ hne (by rw [hk, hchunk]; exact hw), hk, hchunk]
        rfl
      · rw [Bool.not_eq_true] at hw
        rw [absorbLoop_next _ _ _ hne hw, absorbLoop_next _ _ _ hne (by rw [hk, hchunk]; exact hw), hk, hchunk,
          ← ih]
        rfl

theorem State.padExtra_popEvent (rest : List HostEvent) (s : State) :
    (s.popEvent rest).padExtra = s.padExtra.popEvent rest := by
  rw [State.padExtra, State.padExtra, apply_ite (State.popEvent rest)]
  rfl

theorem State.finish_popEvent (rest : List HostEvent) (s : State) :
    (s.popEvent rest).finish = s.finish.popEvent rest := by
  have hpad := (s.put [0x80]).padExtra_popEvent rest
  rw [State.finish, State.pad]
  show { (((s.put [0x80]).popEvent rest).padExtra.zeroFill 56).putLen.compress with computed := true } = _
  rw [hpad]
  rfl

theorem readContext_popEvent {view : State → Word} (hv : ∀ rest s, view (s.popEvent rest) = view s)
    (rest : List HostEvent) (s : State) :
    readContext view (s.popEvent rest) = popAnswer rest (readContext view s) := by
  rw [readContext, readContext, hv, apply_ite (popAnswer rest)]
  rfl

theorem readData_popEvent (rest : List HostEvent) (s : State) :
    readData (s.popEvent rest) = popAnswer rest (readData s) := by
  rw [readData, readData, apply_ite (popAnswer rest)]
  rfl

theorem readDout_popEvent (k : Fin 5) (rest : List HostEvent) (s : State) :
    readDout k (s.popEvent rest) = popAnswer rest (readDout k s) := by
  rw [readDout, readDout, apply_ite (popAnswer rest)]
  rfl

theorem absorb_popEvent (nb : Nat) (rest : List HostEvent) (s : State) :
    absorb nb (s.popEvent rest) = popAnswer rest (absorb nb s) := by
  have hloop := absorbLoop_popEvent rest nb (absorbBytes s.data nb) s
  simp only [absorb, apply_ite (popAnswer rest), popAnswer_next, ← hloop]
  rfl

theorem execFinalize_popEvent (rest : List HostEvent) (s : State) :
    execFinalize (s.popEvent rest) = popAnswer rest (execFinalize s) := by
  simp only [execFinalize, State.finish_popEvent, apply_ite (popAnswer rest)]
  rfl

theorem performCmd_popEvent (c : Cmd) (rest : List HostEvent) (s : State) :
    performCmd c (s.popEvent rest) = popAnswer rest (performCmd c s) := by
  cases c with
  | reset => rfl
  | absorb0 => exact absorb_popEvent 0 rest s
  | absorb1 => exact absorb_popEvent 1 rest s
  | absorb2 => exact absorb_popEvent 2 rest s
  | absorb3 => exact absorb_popEvent 3 rest s
  | absorb4 => exact absorb_popEvent 4 rest s
  | finalize => exact execFinalize_popEvent rest s

theorem execWrCmd_popEvent (v : Word) (rest : List HostEvent) (s : State) :
    execWrCmd v (s.popEvent rest) = popAnswer rest (execWrCmd v s) := by
  rw [execWrCmd, execWrCmd]
  cases decodeCmd v with
  | ok c => exact performCmd_popEvent c rest s
  | error r => rfl

/-- No instruction looks at the pending events or changes them. -/
theorem exec_popEvent (i : Instr) (rest : List HostEvent) (s : State) :
    exec i (s.popEvent rest) = popAnswer rest (exec i s) := by
  cases i with
  | wrCmd v => exact execWrCmd_popEvent v rest s
  | wrData | wrDout0 | wrDout1 | wrDout2 | wrDout3 | wrDout4 => rfl
  | rdData => exact readData_popEvent rest s
  | rdStatus | rdLenlo | rdLenhi => exact readContext_popEvent (fun _ _ => rfl) rest s
  | rdH0 => exact readContext_popEvent (view := fun s => s.h[0]) (fun _ _ => rfl) rest s
  | rdH1 => exact readContext_popEvent (view := fun s => s.h[1]) (fun _ _ => rfl) rest s
  | rdH2 => exact readContext_popEvent (view := fun s => s.h[2]) (fun _ _ => rfl) rest s
  | rdH3 => exact readContext_popEvent (view := fun s => s.h[3]) (fun _ _ => rfl) rest s
  | rdH4 => exact readContext_popEvent (view := fun s => s.h[4]) (fun _ _ => rfl) rest s
  | rdDout0 => exact readDout_popEvent 0 rest s
  | rdDout1 => exact readDout_popEvent 1 rest s
  | rdDout2 => exact readDout_popEvent 2 rest s
  | rdDout3 => exact readDout_popEvent 3 rest s
  | rdDout4 => exact readDout_popEvent 4 rest s
  | reset => exact performCmd_popEvent .reset rest s
  | absorb0 => exact performCmd_popEvent .absorb0 rest s
  | absorb1 => exact performCmd_popEvent .absorb1 rest s
  | absorb2 => exact performCmd_popEvent .absorb2 rest s
  | absorb3 => exact performCmd_popEvent .absorb3 rest s
  | absorb4 => exact performCmd_popEvent .absorb4 rest s
  | finalize => exact performCmd_popEvent .finalize rest s

/-- No instruction writes the parameters. -/
theorem exec_cfg {i : Instr} {s t : State} (h : exec i s = .next t) : t.cfg = s.cfg := by
  obtain ⟨-, ⟨v, rfl⟩ | ⟨r, rfl⟩⟩ | ⟨v, -, rfl⟩ | ⟨k, v, -, rfl⟩ | ⟨c, -, hp⟩ := exec_next h
  · rfl
  · rfl
  · rfl
  · rfl
  · rw [performCmd_frame hp]

/-! ### A queue of accesses is served one access after the other -/

/-- If serving an access answers, the access decodes, and its instruction answers. -/
theorem serve_next {a : Access} {s t : State} (hc : paramsOk s.cfg = true) (h : serve a s = .next t) :
    ∃ i, decodeAccess a = .ok i ∧ exec i s = .next t := by
  rw [serve, step_access (s := s.pushEvent (.access a)) (rest := s.pending) hc rfl] at h
  cases hd : decodeAccess a with
  | ok i =>
    rw [performAccess_of_ok hd] at h
    exact ⟨i, rfl, h⟩
  | error r =>
    rw [performAccess_of_error hd] at h
    cases h

/-- One step takes from the queue the access that serving would have made. -/
theorem step_popEvent_of_serve {a : Access} {s t : State} (hc : paramsOk s.cfg = true) (h : serve a s = .next t)
    (rest : List HostEvent) : step (s.popEvent (.access a :: rest)) = .next (t.popEvent rest) := by
  obtain ⟨i, hd, he⟩ := serve_next hc h
  rw [step_access (s := s.popEvent (.access a :: rest)) hc rfl, performAccess_of_ok hd]
  show exec i (s.popEvent rest) = _
  rw [exec_popEvent, he, popAnswer_next]

theorem serve_cfg {a : Access} {s t : State} (hc : paramsOk s.cfg = true) (h : serve a s = .next t) :
    t.cfg = s.cfg := by
  obtain ⟨i, -, he⟩ := serve_next hc h
  exact exec_cfg he

theorem core_run_succ_of_step {n : Nat} {s t : State} (h : step s = .next t) :
    Sys2Proof.core.run (n + 1) s = Sys2Proof.core.run n t := by
  have hcore : Sys2Proof.core.step s = .next t := h
  simp only [Host.Core.run, hcore]

/-- A run over a queue of accesses is those accesses served, the rest of the queue left pending. -/
theorem core_run_of_serveAll {as : List Access} {s t : State} (hc : paramsOk s.cfg = true)
    (h : serveAll as s = .next t) (rest : List HostEvent) :
    Sys2Proof.core.run as.length (s.popEvent (eventsOf as ++ rest)) = .next (t.popEvent rest) := by
  induction as generalizing s with
  | nil => cases h; rfl
  | cons a as ih =>
    cases hu : serve a s with
    | next u =>
      rw [serveAll, hu] at h
      have hstep := step_popEvent_of_serve hc hu (eventsOf as ++ rest)
      exact (core_run_succ_of_step hstep).trans (ih (by rwa [serve_cfg hc hu]) h)
    | fault f => cases f
    | refused r => rw [serveAll, hu] at h; cases h

end Sys2Proof.Machine

namespace Sys2Proof.Machine

/-! ### Strings absorbed byte by byte -/

theorem State.chunk_loadData (v : Word) (bs : List Byte) (s : State) :
    (s.loadData v).chunk bs = (s.chunk bs).loadData v := by
  by_cases h : s.fill + bs.length = 64
  · rw [State.chunk_of_full bs s h, State.chunk_of_full bs (s.loadData v) h]
    rfl
  · rw [State.chunk_of_room bs s h, State.chunk_of_room bs (s.loadData v) h]
    rfl

/-- What DATA holds does not matter to a string absorbed byte by byte. -/
theorem State.absorbString_loadData (v : Word) (m : List Byte) (s : State) :
    (s.loadData v).absorbString m = (s.absorbString m).loadData v :=
  List.foldl_hom (State.loadData v) fun s d => by
    rw [State.absorbByte, State.chunk_loadData]
    rfl

theorem State.absorbByte_frame (s : State) (d : Byte) :
    ∃ b f h lo hi, s.absorbByte d = { s with block := b, fill := f, h := h, lenLo := lo, lenHi := hi } := by
  rw [State.absorbByte, State.chunk_frame]
  exact ⟨_, _, _, _, _, rfl⟩

/-- Absorbing a string writes only BLOCK, FILL, H and LEN. -/
theorem State.absorbString_frame (m : List Byte) (s : State) :
    ∃ b f h lo hi, s.absorbString m = { s with block := b, fill := f, h := h, lenLo := lo, lenHi := hi } := by
  induction m generalizing s with
  | nil => exact ⟨_, _, _, _, _, rfl⟩
  | cons d m ih =>
    obtain ⟨b, f, h, lo, hi, e⟩ := s.absorbByte_frame d
    show ∃ _ _ _ _ _, (s.absorbByte d).absorbString m = _
    rw [e]
    exact ih _

@[simp] theorem State.absorbString_cfg (m : List Byte) (s : State) : (s.absorbString m).cfg = s.cfg := by
  obtain ⟨b, f, h, lo, hi, e⟩ := s.absorbString_frame m
  rw [e]

@[simp] theorem State.absorbString_pending (m : List Byte) (s : State) : (s.absorbString m).pending = s.pending := by
  obtain ⟨b, f, h, lo, hi, e⟩ := s.absorbString_frame m
  rw [e]

@[simp] theorem State.absorbString_returned (m : List Byte) (s : State) :
    (s.absorbString m).returned = s.returned := by
  obtain ⟨b, f, h, lo, hi, e⟩ := s.absorbString_frame m
  rw [e]

@[simp] theorem State.absorbString_faults (m : List Byte) (s : State) : (s.absorbString m).faults = s.faults := by
  obtain ⟨b, f, h, lo, hi, e⟩ := s.absorbString_frame m
  rw [e]

theorem State.Open.absorbString {s : State} (ho : s.Open) (m : List Byte) : (s.absorbString m).Open := by
  obtain ⟨b, f, h, lo, hi, e⟩ := s.absorbString_frame m
  rw [e]
  exact ho

theorem State.absorbByte_fill_lt {s : State} (hf : s.fill < 64) (d : Byte) : (s.absorbByte d).fill < 64 :=
  State.chunk_fill_lt [d] s hf

theorem State.absorbString_fill_lt {s : State} (hf : s.fill < 64) (m : List Byte) :
    (s.absorbString m).fill < 64 := by
  induction m generalizing s with
  | nil => exact hf
  | cons d m ih => exact ih (State.absorbByte_fill_lt hf d)

theorem State.absorbByte_len {s : State} (hl : s.len + 8 < 2 ^ 64) (d : Byte) :
    (s.absorbByte d).len = s.len + 8 := by
  rw [State.absorbByte, State.count_len _ _ (by omega), State.chunk_len]
  exact Nat.mod_eq_of_lt hl

theorem State.absorbString_len {s : State} {m : List Byte} (hl : s.len + 8 * m.length < 2 ^ 64) :
    (s.absorbString m).len = s.len + 8 * m.length := by
  induction m generalizing s with
  | nil => simp [State.absorbString]
  | cons d m ih =>
    rw [List.length_cons] at hl ⊢
    have hd := State.absorbByte_len (s := s) (by omega) d
    have hm : ((s.absorbByte d).absorbString m).len = (s.absorbByte d).len + 8 * m.length := ih (by omega)
    exact hm.trans (by omega)

/-! ### ABSORB as a string (41_commands.md R139) -/

/-- The chunk loop absorbs its bytes one after the other, as long as no count wraps. -/
theorem absorbLoop_eq_absorbString {fuel : Nat} {bs : List Byte} {s : State} (hfuel : bs.length ≤ fuel)
    (hf : s.fill < 64) (hl : s.len + 8 * bs.length < 2 ^ 64) : absorbLoop fuel bs s = s.absorbString bs := by
  induction fuel generalizing bs s with
  | zero =>
    obtain rfl : bs = [] := List.eq_nil_of_length_eq_zero (by omega)
    rfl
  | succ n ih =>
    by_cases hne : bs = []
    · subst hne
      rfl
    have hpos : 0 < bs.length := List.length_pos_iff.mpr hne
    have hk : chunkLen bs s = min bs.length (64 - s.fill) := rfl
    generalize chunkLen bs s = k at hk
    have htake : (bs.take k).length = k := by rw [List.length_take]; omega
    have hdrop : (bs.drop k).length = bs.length - k := List.length_drop
    have hchunk : (s.chunk (bs.take k)).count k = s.absorbString (bs.take k) := by
      have h := State.chunk_eq_absorbString (bs.take k) s (List.ne_nil_of_length_pos (by omega)) (by omega)
      rwa [htake] at h
    have hw : wraps k (s.chunk (bs.take k)) = false := by
      rw [wraps_eq_false_iff _ _ (by omega), State.chunk_len]
      omega
    have hlen : (s.absorbString (bs.take k)).len = s.len + 8 * k := by
      rw [State.absorbString_len (by omega), htake]
    calc absorbLoop (n + 1) bs s = absorbLoop n (bs.drop k) (s.absorbString (bs.take k)) := by
          have hk' : chunkLen bs s = k := hk.symm
          rw [absorbLoop_next _ _ _ hne (by rwa [hk']), hk', hchunk]
      _ = (s.absorbString (bs.take k)).absorbString (bs.drop k) :=
          ih (by omega) (State.absorbString_fill_lt hf _) (by omega)
      _ = s.absorbString bs := by rw [← State.absorbString_append, List.take_append_drop]

/-- An ABSORB on an open context absorbs the bytes it takes from DATA. -/
theorem absorb_eq_absorbString {nb : Nat} {s : State} (ho : s.Open) (hw : s.writtenData = true) (hf : s.fill < 64)
    (h4 : nb ≤ 4) (hmax : nb ≤ s.cfg.dataBytesMax) (hl : s.len + 8 * nb < 2 ^ 64) :
    absorb nb s = .next (s.absorbString (absorbBytes s.data nb)) := by
  have hlen := absorbBytes_length s.data h4
  by_cases h0 : nb = 0
  · subst h0
    rw [absorb_of_le hmax, if_neg (by simp [ho.1]), if_pos rfl]
    rfl
  · rw [absorb_of_open ho hw h0 hmax, absorbLoop_eq_absorbString hlen.le hf (by rwa [hlen])]

/-- `be32` as the sum of its bytes, which do not overlap (R12). -/
theorem be32_toNat (b0 b1 b2 b3 : Byte) :
    (be32 b0 b1 b2 b3).toNat = 2 ^ 24 * b0.toNat + (2 ^ 16 * b1.toNat + (2 ^ 8 * b2.toNat + b3.toNat)) := by
  have h0 := b0.isLt
  have h1 := b1.isLt
  have h2 := b2.isLt
  have h3 := b3.isLt
  have hshift (b : Byte) (n : Nat) (hn : 2 ^ n * b.toNat < 2 ^ 32) :
      (b.setWidth 32 <<< n).toNat = 2 ^ n * b.toNat := by
    have hb : b.toNat % 2 ^ 32 = b.toNat := Nat.mod_eq_of_lt (by omega)
    rw [BitVec.toNat_shiftLeft, BitVec.toNat_setWidth, hb, Nat.shiftLeft_eq, Nat.mul_comm, Nat.mod_eq_of_lt hn]
  rw [Nat.two_pow_add_eq_or_of_lt (by omega), Nat.two_pow_add_eq_or_of_lt (by omega),
    Nat.two_pow_add_eq_or_of_lt (by omega), be32, BitVec.toNat_or, BitVec.toNat_or, BitVec.toNat_or,
    hshift b0 24 (by omega), hshift b1 16 (by omega), hshift b2 8 (by omega), BitVec.toNat_setWidth,
    Nat.mod_eq_of_lt (by omega), Nat.or_assoc, Nat.or_assoc]

theorem bytesBe32_be32 (b0 b1 b2 b3 : Byte) : bytesBe32 (be32 b0 b1 b2 b3) = [b0, b1, b2, b3] := by
  have h0 := b0.isLt
  have h1 := b1.isLt
  have h2 := b2.isLt
  have h3 := b3.isLt
  simp only [bytesBe32, List.cons.injEq, and_true, ← BitVec.toNat_inj, wordByte_toNat, be32_toNat]
  omega

/-- DATA packed with up to four bytes gives them back to the ABSORB of their number. -/
theorem absorbBytes_packBytes {c : List Byte} (h : c.length ≤ 4) : absorbBytes (packBytes c) c.length = c := by
  rw [absorbBytes, packBytes, bytesBe32_be32]
  match c, h with
  | [], _ => rfl
  | [_], _ => rfl
  | [_, _], _ => rfl
  | [_, _, _], _ => rfl
  | [_, _, _, _], _ => rfl

/-! ### The host's accesses that carry a string (30_encoding.md R79) -/

theorem serveAll_cons_of_next {a : Access} {as : List Access} {s t : State} (h : serve a s = .next t) :
    serveAll (a :: as) s = serveAll as t := by
  rw [serveAll, h]

/-- Serving the access of a well-formed instruction runs the instruction, a command through the word that spells it. -/
theorem serve_access {i : Instr} {s : State} (hi : i.wellFormed = true) (hc : paramsOk s.cfg = true) :
    serve i.access s = exec i s := by
  obtain ⟨-, hd | ⟨v, c, hd, hv, rfl⟩⟩ := encodedInstructionDecodesBack i hi
  · exact serve_of_ok hc hd
  · rw [serve_of_ok hc hd, execWrCmd_of_ok hv]

theorem serve_cmdAbsorb {nb : Nat} {s : State} (h4 : nb ≤ 4) (hc : paramsOk s.cfg = true) :
    serve (cmdAbsorb nb) s = absorb nb s := by
  match nb, h4 with
  | 0, _ => exact serve_access (i := .absorb0) rfl hc
  | 1, _ => exact serve_access (i := .absorb1) rfl hc
  | 2, _ => exact serve_access (i := .absorb2) rfl hc
  | 3, _ => exact serve_access (i := .absorb3) rfl hc
  | 4, _ => exact serve_access (i := .absorb4) rfl hc

/-- An open context that can count `n` more bytes, with legal parameters: what every ABSORB of a message needs. -/
structure State.Ready (s : State) (n : Nat) : Prop where
  params : paramsOk s.cfg = true
  isOpen : s.Open
  fill_lt : s.fill < 64
  len_lt : s.len + 8 * n < 2 ^ 64

theorem State.Ready.loadData {s : State} {n : Nat} (h : s.Ready n) (v : Word) : (s.loadData v).Ready n :=
  ⟨h.params, h.isOpen, h.fill_lt, h.len_lt⟩

theorem State.Ready.absorbString {s : State} {m : List Byte} {n : Nat} (h : s.Ready (m.length + n)) :
    (s.absorbString m).Ready n := by
  obtain ⟨hc, ho, hf, hl⟩ := h
  refine ⟨by rwa [State.absorbString_cfg], ho.absorbString m, State.absorbString_fill_lt hf m, ?_⟩
  rw [State.absorbString_len (by omega)]
  omega

/-- One chunk: DATA is loaded and the bytes of it absorbed. -/
theorem serveAll_absorbChunk {s : State} {c : List Byte} (h : s.Ready c.length) (h4 : c.length ≤ 4)
    (hmax : c.length ≤ s.cfg.dataBytesMax) :
    serveAll (absorbChunk c) s = .next ((s.absorbString c).loadData (packBytes c)) := by
  have hwrite : serve (Instr.wrData (packBytes c)).access s = .next (s.loadData (packBytes c)) :=
    serve_access rfl h.params
  have habsorb : serve (cmdAbsorb c.length) (s.loadData (packBytes c)) =
      .next ((s.absorbString c).loadData (packBytes c)) := by
    obtain ⟨hc, ho, hf, hl⟩ := h.loadData (packBytes c)
    rw [serve_cmdAbsorb h4 hc, absorb_eq_absorbString ho rfl hf h4 hmax hl, State.loadData_data,
      absorbBytes_packBytes h4, State.absorbString_loadData]
  rw [absorbChunk, absorbW, serveAll_cons_of_next hwrite, serveAll_cons_of_next habsorb, serveAll]

/-- A string in chunks: the context depends on the string alone, DATA on the last chunk. -/
theorem serveAll_absorbChunks {s : State} {chunks : List (List Byte)} (h : s.Ready chunks.flatten.length)
    (hchunks : ∀ c ∈ chunks, c.length ≤ 4 ∧ c.length ≤ s.cfg.dataBytesMax) :
    ∃ d w, serveAll (chunks.flatMap absorbChunk) s =
      .next { s.absorbString chunks.flatten with data := d, writtenData := w } := by
  induction chunks generalizing s with
  | nil => exact ⟨s.data, s.writtenData, rfl⟩
  | cons c cs ih =>
    obtain ⟨⟨h4, hmax⟩, hcs⟩ := List.forall_mem_cons.mp hchunks
    rw [List.flatten_cons, List.length_append] at h
    have hc : s.Ready c.length := ⟨h.params, h.isOpen, h.fill_lt, by have := h.len_lt; omega⟩
    obtain ⟨d, w, e⟩ := ih (h.absorbString.loadData (packBytes c))
      (by rwa [State.loadData_cfg, State.absorbString_cfg])
    refine ⟨d, w, ?_⟩
    rw [List.flatMap_cons, serveAll_append_of_next (serveAll_absorbChunk hc h4 hmax), e,
      State.absorbString_loadData, List.flatten_cons, State.absorbString_append]
    rfl

/-- `ABSORBBUF` cuts its string into chunks of at most four bytes. -/
theorem absorbGroups_eq_flatMap : ∀ m : List Byte, ∃ chunks : List (List Byte),
    absorbGroups m = chunks.flatMap absorbChunk ∧ chunks.flatten = m ∧ ∀ c ∈ chunks, c.length ≤ 4
  | b0 :: b1 :: b2 :: b3 :: rest => by
    obtain ⟨chunks, hgroups, hflat, hlen⟩ := absorbGroups_eq_flatMap rest
    refine ⟨[b0, b1, b2, b3] :: chunks, ?_, ?_, List.forall_mem_cons.mpr ⟨le_rfl, hlen⟩⟩
    · rw [absorbGroups, hgroups, List.flatMap_cons]
    · rw [List.flatten_cons, hflat]
      rfl
  | [] => ⟨[], rfl, rfl, nofun⟩
  | [b0] => ⟨[[b0]], rfl, rfl, by simp⟩
  | [b0, b1] => ⟨[[b0, b1]], rfl, rfl, by simp⟩
  | [b0, b1, b2] => ⟨[[b0, b1, b2]], rfl, rfl, by simp⟩

theorem serveAll_absorbBuf {s : State} {m : List Byte} (h : s.Ready m.length) (hmax : 4 ≤ s.cfg.dataBytesMax) :
    ∃ d w, serveAll (absorbBuf m) s = .next { s.absorbString m with data := d, writtenData := w } := by
  cases m with
  | nil =>
    refine ⟨s.data, s.writtenData, ?_⟩
    have habsorb : serve (cmdAbsorb 0) s = .next s := by
      rw [serve_cmdAbsorb (by omega) h.params, absorb_of_le (by omega), if_neg (by simp [h.isOpen.1]), if_pos rfl]
    exact serveAll_cons_of_next habsorb
  | cons b bs =>
    obtain ⟨chunks, hgroups, hflat, hlen⟩ := absorbGroups_eq_flatMap (b :: bs)
    rw [absorbBuf, hgroups, ← hflat]
    exact serveAll_absorbChunks (hflat ▸ h) fun c hc => ⟨hlen c hc, (hlen c hc).trans hmax⟩

end Sys2Proof.Machine

namespace Sys2Proof.Machine

/-! ### Blocks folded into H (42_compress_pad.md R152) -/

/-- The first block is compressed first. -/
theorem foldBlocks_block_append (cfg : Config) (n : Nat) (h : Vector Word 5) {b : List Byte} (hb : b.length = 64)
    (rest : List Byte) :
    foldBlocks cfg (n + 1) h (b ++ rest) = foldBlocks cfg n (compressWords cfg h b) rest := by
  rw [foldBlocks, List.take_left' hb, List.drop_left' hb]

theorem foldBlocks_one (cfg : Config) (h : Vector Word 5) {b : List Byte} (hb : b.length = 64) :
    foldBlocks cfg 1 h b = compressWords cfg h b := by
  rw [foldBlocks, List.take_of_length_le hb.le, foldBlocks]

/-- The blocks of a string are folded one part after the other. -/
theorem foldBlocks_append (cfg : Config) (n k : Nat) (h : Vector Word 5) {xs : List Byte} (hxs : xs.length = 64 * n)
    (ys : List Byte) : foldBlocks cfg (n + k) h (xs ++ ys) = foldBlocks cfg k (foldBlocks cfg n h xs) ys := by
  induction n generalizing h xs with
  | zero =>
    obtain rfl : xs = [] := List.eq_nil_of_length_eq_zero hxs
    rw [Nat.zero_add]
    rfl
  | succ n ih =>
    have htake : (xs.take 64).length = 64 := by rw [List.length_take]; omega
    have hdrop : (xs.drop 64).length = 64 * n := by rw [List.length_drop]; omega
    rw [Nat.add_right_comm, foldBlocks, List.take_append_of_le_length (by omega),
      List.drop_append_of_le_length (by omega), ih _ hdrop, foldBlocks]

/-! ### A context that has absorbed a message -/

/-- The message `m` has been absorbed since RESET: its whole blocks are folded into H, the rest of it stands in BLOCK
below FILL, and LEN counts its bits. -/
structure State.HasAbsorbed (s : State) (m : List Byte) : Prop where
  h_eq : s.h = foldBlocks s.cfg (m.length / 64) s.cfg.iv (m.take (64 * (m.length / 64)))
  block_eq : s.block.toList.take s.fill = m.drop (64 * (m.length / 64))
  fill_eq : s.fill = m.length % 64
  len_eq : s.len = 8 * m.length

/-- What DATA holds is no part of the context. -/
theorem State.HasAbsorbed.withData {s : State} {m : List Byte} (h : s.HasAbsorbed m) (d : Word) (w : Bool) :
    State.HasAbsorbed { s with data := d, writtenData := w } m :=
  ⟨h.h_eq, h.block_eq, h.fill_eq, h.len_eq⟩

theorem State.createContext_hasAbsorbed (s : State) : s.createContext.HasAbsorbed [] :=
  ⟨rfl, rfl, rfl, s.createContext_len⟩

/-- What follows the message is folded into H after the bytes that wait in BLOCK. -/
theorem State.HasAbsorbed.foldBlocks_append {s : State} {m : List Byte} (h : s.HasAbsorbed m) (k : Nat)
    (tail : List Byte) :
    foldBlocks s.cfg (m.length / 64 + k) s.cfg.iv (m ++ tail) =
      foldBlocks s.cfg k s.h (s.block.toList.take s.fill ++ tail) := by
  have hlen : (m.take (64 * (m.length / 64))).length = 64 * (m.length / 64) := by rw [List.length_take]; omega
  rw [h.block_eq, h.h_eq, ← Machine.foldBlocks_append _ _ _ _ hlen, ← List.append_assoc, List.take_append_drop]

/-- A byte that leaves room in the block waits there. -/
theorem State.HasAbsorbed.put_count {s : State} {m : List Byte} (h : s.HasAbsorbed m) (d : Byte)
    (hroom : s.fill < 63) (hl : 8 * (m.length + 1) < 2 ^ 64) : ((s.put [d]).count 1).HasAbsorbed (m ++ [d]) := by
  have hfill := h.fill_eq
  have hlen : (m ++ [d]).length = m.length + 1 := List.length_append
  have hq : (m.length + 1) / 64 = m.length / 64 := by omega
  refine ⟨?_, ?_, ?_, ?_⟩
  · rw [hlen, hq, List.take_append_of_le_length (by omega)]
    exact h.h_eq
  · have hbelow : (s.block.toList.take s.fill ++ [d]).length = s.fill + 1 := by simp; omega
    rw [hlen, hq, List.drop_append_of_le_length (by omega), ← h.block_eq, State.count_block, State.count_fill,
      State.put_block, State.put_fill, blockPut_toList _ _ _ (by simp; omega)]
    exact List.take_left' hbelow
  · rw [State.count_fill, State.put_fill, hlen, List.length_singleton]
    omega
  · have hput : (s.put [d]).len = s.len := rfl
    rw [State.count_len _ _ (by omega), hput, h.len_eq, hlen]
    exact Nat.mod_eq_of_lt hl

/-- A byte that fills the block completes a block of the message. -/
theorem State.HasAbsorbed.compress_count {s : State} {m : List Byte} (h : s.HasAbsorbed m) (d : Byte)
    (hfull : s.fill = 63) (hl : 8 * (m.length + 1) < 2 ^ 64) :
    ((s.put [d]).compress.count 1).HasAbsorbed (m ++ [d]) := by
  have hfill := h.fill_eq
  have hlen : (m ++ [d]).length = m.length + 1 := List.length_append
  have hq : (m.length + 1) / 64 = m.length / 64 + 1 := by omega
  have hall : (m ++ [d]).length ≤ 64 * (m.length / 64 + 1) := by omega
  have hblock : (s.block.toList.take s.fill ++ [d]).length = 64 := by simp [hfull]
  rw [State.compress_put s [d] (by rw [hfull]; rfl)]
  refine ⟨?_, ?_, ?_, ?_⟩
  · rw [hlen, hq, List.take_of_length_le hall]
    refine Eq.trans ?_ (h.foldBlocks_append 1 [d]).symm
    rw [foldBlocks_one _ _ hblock]
    rfl
  · rw [hlen, hq, List.drop_of_length_le hall]
    rfl
  · rw [hlen]
    show 0 = _
    omega
  · rw [State.count_len _ _ (by omega), hlen]
    show (s.len + _) % _ = _
    rw [h.len_eq]
    exact Nat.mod_eq_of_lt hl

theorem State.HasAbsorbed.absorbByte {s : State} {m : List Byte} (h : s.HasAbsorbed m) (d : Byte)
    (hl : 8 * (m.length + 1) < 2 ^ 64) : (s.absorbByte d).HasAbsorbed (m ++ [d]) := by
  have hfill := h.fill_eq
  by_cases hfull : s.fill = 63
  · rw [State.absorbByte, State.chunk_of_full _ _ (by rw [hfull]; rfl)]
    exact h.compress_count d hfull hl
  · rw [State.absorbByte, State.chunk_of_room _ _ (by simp; omega)]
    exact h.put_count d (by omega) hl

theorem State.HasAbsorbed.absorbString {s : State} {m : List Byte} (h : s.HasAbsorbed m) {m' : List Byte}
    (hl : 8 * (m.length + m'.length) < 2 ^ 64) : (s.absorbString m').HasAbsorbed (m ++ m') := by
  induction m' generalizing s m with
  | nil => rwa [List.append_nil]
  | cons d m' ih =>
    rw [List.length_cons] at hl
    have hd := ih (h.absorbByte d (by omega)) (by rw [List.length_append, List.length_singleton]; omega)
    rwa [List.append_assoc] at hd

/-! ### The padded message (42_compress_pad.md R160) -/

theorem padZeros_of_room {padLimit n : Nat} (hpl : padLimit = 55 ∨ padLimit = 56) (h : n % 64 + 1 ≤ padLimit) :
    padZeros padLimit n = 55 - n % 64 := by
  rw [padZeros, if_neg (by omega)]
  omega

theorem padZeros_of_extra {padLimit n : Nat} (hpl : padLimit = 55 ∨ padLimit = 56) (h : padLimit < n % 64 + 1) :
    padZeros padLimit n = 63 - n % 64 + 56 := by
  rw [padZeros]
  split <;> omega

theorem padMessage_length (padLimit : Nat) (m : List Byte) :
    (padMessage padLimit m).length = m.length + 1 + padZeros padLimit m.length + 8 := by
  simp [padMessage, bytesBe32]
  omega

/-- LEN as the padded message's length field (R157). -/
theorem State.HasAbsorbed.padMessage_eq {s : State} {m : List Byte} (h : s.HasAbsorbed m) (padLimit : Nat) :
    padMessage padLimit m =
      m ++ ([0x80] ++ List.replicate (padZeros padLimit m.length) 0 ++ (bytesBe32 s.lenHi ++ bytesBe32 s.lenLo)) := by
  have hlo := s.lenLo.isLt
  have hhi := s.lenHi.isLt
  have hlen := h.len_eq
  rw [State.len] at hlen
  have ehi : BitVec.ofNat 32 (8 * m.length / 2 ^ 32) = s.lenHi := by
    apply BitVec.eq_of_toNat_eq
    rw [BitVec.toNat_ofNat]
    omega
  have elo : BitVec.ofNat 32 (8 * m.length) = s.lenLo := by
    apply BitVec.eq_of_toNat_eq
    rw [BitVec.toNat_ofNat]
    omega
  simp only [padMessage, ehi, elo, List.append_assoc]

/-- The digest from where the machine stands: what waits in BLOCK, then the padding, is still to be folded into H. -/
theorem State.HasAbsorbed.digestOf_eq {s : State} {m : List Byte} (h : s.HasAbsorbed m) {k z : Nat}
    (hz : padZeros s.cfg.padLimit m.length = z) (hk : m.length % 64 + 1 + z + 8 = 64 * k) :
    digestOf s.cfg m = foldBlocks s.cfg k s.h
      (s.block.toList.take s.fill ++
        ([0x80] ++ List.replicate z 0 ++ (bytesBe32 s.lenHi ++ bytesBe32 s.lenLo))) := by
  have hblocks : (padMessage s.cfg.padLimit m).length / 64 = m.length / 64 + k := by
    rw [padMessage_length, hz]
    omega
  rw [digestOf, hblocks, h.padMessage_eq, h.foldBlocks_append, hz]

/-- Padding gives the digest of the message absorbed: the machine's padded blocks are those of the padded string. -/
theorem State.HasAbsorbed.pad_h {s : State} {m : List Byte} (h : s.HasAbsorbed m) (hc : paramsOk s.cfg = true) :
    s.pad.h = digestOf s.cfg m := by
  have hfill := h.fill_eq
  have hpl : s.cfg.padLimit = 55 ∨ s.cfg.padLimit = 56 := by
    simp only [paramsOk, Bool.and_eq_true, Bool.or_eq_true, decide_eq_true_eq] at hc
    exact hc.2
  by_cases hroom : s.fill + 1 ≤ s.cfg.padLimit
  · have hz := padZeros_of_room (n := m.length) hpl (by omega)
    rw [State.pad_h_of_room s (by omega) (by omega) hroom, h.digestOf_eq (k := 1) hz (by omega), ← hfill,
      foldBlocks_one _ _ (by simp [bytesBe32]; omega)]
    simp only [List.append_assoc]
  · have hz := padZeros_of_extra (n := m.length) hpl (by omega)
    have hblock : (s.block.toList.take s.fill ++ ([0x80] ++ List.replicate (63 - s.fill) 0)).length = 64 := by
      simp; omega
    rw [State.pad_h_of_extra s (by omega) (by omega), h.digestOf_eq (k := 2) hz (by omega), ← hfill,
      ← List.replicate_append_replicate, ← foldBlocks_one _ _ (by simp [bytesBe32]), List.append_assoc,
      ← foldBlocks_block_append _ _ _ hblock]
    simp only [List.append_assoc]

/-! ### FINALIZE and the reads of a digest (30_encoding.md R79) -/

/-- A finished, uncorrupted context shows STATUS 1. -/
theorem statusWord_of_finished {s : State} (hf : s.fill = 0) (hc : s.computed = true) (hk : s.corrupted = false) :
    statusWord s = 1 := by
  apply BitVec.eq_of_toNat_eq
  rw [statusWord_toNat (by omega), hf, hc, hk]
  rfl

/-- FINALIZE on an open context pads and copies, and STATUS is 1 after it. -/
theorem serveAll_finalizeStatus {s : State} (hc : paramsOk s.cfg = true) (ho : s.Open) :
    serveAll finalizeStatus s = .next (s.finish.copyOut.answer 1) := by
  obtain ⟨hi, hcomp, hcorr⟩ := ho
  obtain ⟨b, h, e⟩ := s.finish_frame
  have hfinalize : serve Instr.finalize.access s = .next s.finish.copyOut := by
    rw [serve_access rfl hc]
    exact (execFinalize_of_uncorrupted hi hcorr).trans (by simp [hcomp])
  have hcfg : s.finish.copyOut.cfg = s.cfg := by rw [e]; rfl
  have hinit : s.finish.copyOut.init = true := by rw [e]; exact hi
  have hword : statusWord s.finish.copyOut = 1 := by
    rw [e]
    exact statusWord_of_finished rfl rfl hcorr
  have hstatus : serve Instr.rdStatus.access s.finish.copyOut = .next (s.finish.copyOut.answer 1) := by
    rw [serve_access rfl (by rwa [hcfg]), exec_view_of_init (view := statusWord) rfl hinit, hword]
  exact (serveAll_cons_of_next hfinalize).trans (serveAll_cons_of_next hstatus)

theorem serve_rdDout {s : State} (hc : paramsOk s.cfg = true) (k : Fin 5) (hw : s.writtenDout[k] = true) :
    serve (rdDoutRow k).access s = .next (s.answer s.dout[k]) := by
  have hwf : (rdDoutRow k).wellFormed = true := by fin_cases k <;> rfl
  rw [serve_access hwf hc, exec_rdDoutRow, readDout, if_pos hw]

/-- Reads of words of DOUT that are written return them in the order of the reads. -/
theorem serveAll_rdDouts {s : State} (hc : paramsOk s.cfg = true) (hw : ∀ k : Fin 5, s.writtenDout[k] = true)
    (ks : List (Fin 5)) :
    serveAll (ks.map fun k => (rdDoutRow k).access) s =
      .next { s with returned := s.returned ++ ks.map fun k => s.dout[k] } := by
  induction ks generalizing s with
  | nil => simp [serveAll]
  | cons k ks ih =>
    rw [List.map_cons, serveAll_cons_of_next (serve_rdDout hc k (hw k)), ih (s := s.answer s.dout[k]) hc hw]
    simp [State.answer]

theorem serveAll_doutReads {s : State} (hc : paramsOk s.cfg = true) (hw : s.writtenDout = Vector.replicate 5 true) :
    serveAll doutReads s = .next { s with returned := s.returned ++ s.dout.toList } := by
  have hwords : (List.finRange 5).map (fun k => s.dout[k]) = s.dout.toList :=
    List.ext_getElem (by simp) (by simp)
  rw [← hwords]
  exact serveAll_rdDouts hc (by simp [hw]) (List.finRange 5)

/-! ### One hash -/

/-- A host that has reset the engine, sent it the message `m` and finalized it, and has read STATUS: the state it started from,
and what it left. -/
structure State.HashedTo (s : State) (m : List Byte) (t : State) : Prop where
  cfg_eq : t.cfg = s.cfg
  h_eq : t.h = digestOf s.cfg m
  dout_eq : t.dout = digestOf s.cfg m
  writtenDout_eq : t.writtenDout = Vector.replicate 5 true
  len_eq : t.len = 8 * m.length
  returned_eq : t.returned = s.returned ++ [1]
  pending_eq : t.pending = s.pending
  faults_eq : t.faults = s.faults

/-- A context that has absorbed a message, finished: FINALIZE writes the digest, and nothing of what the host has sent or
seen. -/
theorem State.HasAbsorbed.hashedTo {s t : State} {m : List Byte} (h : t.HasAbsorbed m) (hc : paramsOk s.cfg = true)
    (hcfg : t.cfg = s.cfg) (hret : t.returned = s.returned) (hpend : t.pending = s.pending)
    (hfaults : t.faults = s.faults) : s.HashedTo m (t.finish.copyOut.answer 1) := by
  have hdigest : t.finish.h = digestOf s.cfg m := by
    rw [← hcfg] at hc ⊢
    exact h.pad_h hc
  have hlen := h.len_eq
  obtain ⟨b, d, e⟩ := t.finish_frame
  rw [e] at hdigest ⊢
  exact ⟨hcfg, hdigest, hdigest, rfl, hlen, congrArg (· ++ [1]) hret, hpend, hfaults⟩

/-- RESET, the ABSORBs of a message that does not wrap the count, FINALIZE and `RD STATUS`, from any state. -/
theorem serveAll_hashToStatus {s : State} {m : List Byte} (hc : paramsOk s.cfg = true) (hmax : 4 ≤ s.cfg.dataBytesMax)
    (hl : 8 * m.length < 2 ^ 64) : ∃ t, serveAll (hashToStatus m) s = .next t ∧ s.HashedTo m t := by
  have hreset : serveAll cmdReset s = .next s.createContext :=
    serveAll_cons_of_next (serve_access rfl hc)
  have hready : s.createContext.Ready m.length :=
    ⟨hc, ⟨rfl, rfl, rfl⟩, (by decide : 0 < 64), by rw [State.createContext_len]; omega⟩
  obtain ⟨d, w, habsorb⟩ := serveAll_absorbBuf hready hmax
  have habsorbed : (s.createContext.absorbString m).HasAbsorbed m :=
    s.createContext_hasAbsorbed.absorbString (by rwa [List.length_nil, Nat.zero_add])
  refine ⟨_, ?_, (habsorbed.withData d w).hashedTo hc (by simp) (by simp) (by simp) (by simp)⟩
  rw [hashToStatus, List.append_assoc, serveAll_append_of_next hreset, serveAll_append_of_next habsorb]
  exact serveAll_finalizeStatus (by simpa using hc) (hready.isOpen.absorbString m)

/-- The pseudo-instructions of R79 in a row: what R193's host does up to STATUS, then the reads of DOUT. -/
theorem hashProgram_eq (m : List Byte) : hashProgram m = hashToStatus m ++ doutReads := by
  simp only [hashProgram, hashToStatus, digestReads, List.append_assoc]

/-- Settles O46: the queue is the program's accesses served in order, and what they leave is R160's digest. -/
theorem hashProgramReturnsDigest : Obligations.HashProgramReturnsDigest := by
  intro s m hc hmax hl hp
  obtain ⟨t, hserve, ht⟩ := serveAll_hashToStatus hc hmax hl
  have hreads : serveAll (hashProgram m) s = .next { t with returned := t.returned ++ t.dout.toList } := by
    rw [hashProgram_eq, serveAll_append_of_next hserve]
    exact serveAll_doutReads (by rwa [ht.cfg_eq]) ht.writtenDout_eq
  have hrun := core_run_of_serveAll hc hreads []
  rw [List.append_nil, ← hp] at hrun
  refine ⟨_, hrun, ?_, ht.dout_eq, ht.h_eq, ht.len_eq, rfl, ht.faults_eq⟩
  show t.returned ++ t.dout.toList = _
  rw [ht.returned_eq, ht.dout_eq, List.append_assoc]
  rfl

end Sys2Proof.Machine

namespace Sys2Proof.Machine

/-! ### The checks of an access, and the access of the row it decodes to (R71, R123) -/

/-- The access of a read's 16 bits. -/
theorem busAccess_read (p : Nat) (hp : p < 256) : busAccess p = ⟨.read, BitVec.ofNat 8 p, 4, 0⟩ := by
  have hdir : p.testBit 8 = false := Nat.testBit_lt_two_pow hp
  have hval : p / 2 ^ 16 = 0 := Nat.div_eq_of_lt (by omega)
  rw [busAccess, hdir, hval]
  rfl

/-- A read that decodes spells the row that reads the same offset. -/
theorem access_of_decodeAccess_read {a : Access} {i : Instr} (h : decodeAccess a = .ok i) (hd : a.dir = .read) :
    i.access = ⟨.read, a.off, 4, 0⟩ := by
  rw [Instr.access, encode_of_decodeAccess_read h hd]
  refine (busAccess_read _ a.off.isLt).trans ?_
  rw [BitVec.ofNat_toNat, BitVec.setWidth_eq]

/-- A write that decodes spells the row that writes the same value at the same offset. -/
theorem access_of_decodeAccess_write {a : Access} {i : Instr} (h : decodeAccess a = .ok i) (hd : a.dir = .write) :
    i.access = ⟨.write, a.off, 4, a.val⟩ := by
  rw [Instr.access, encode_of_decodeAccess_write h hd]
  refine (busAccess_write _ a.off.isLt _).trans ?_
  rw [BitVec.ofNat_toNat, BitVec.setWidth_eq]

/-- What passes all five checks of R123. -/
theorem checkAccess_none {a : Access} (hs : a.size = 4) (h4 : a.off.toNat % 4 = 0) (hlt : a.off.toNat < 0x3C)
    (hr : a.dir = .read → 0x04 ≤ a.off.toNat) (hw : a.dir = .write → a.off.toNat < 0x08 ∨ 0x24 < a.off.toNat) :
    checkAccess a = none := by
  have hread : ¬(a.dir = .read ∧ a.off.toNat = 0x00) := fun ⟨hd, h0⟩ => by have := hr hd; omega
  have hwrite : ¬(a.dir = .write ∧ 0x08 ≤ a.off.toNat ∧ a.off.toNat ≤ 0x24) :=
    fun ⟨hd, hlo, hhi⟩ => by have := hw hd; omega
  rw [checkAccess, if_neg (not_not.mpr hs), if_neg (not_not.mpr h4), if_neg (Nat.not_le.mpr hlt), if_neg hread,
    if_neg hwrite]

/-- An access that passes the checks decodes. -/
theorem exists_decodeAccess_of_checkAccess {a : Access} (h : checkAccess a = none) :
    ∃ i, decodeAccess a = .ok i := by
  obtain ⟨i, hrow⟩ := Option.isSome_iff_exists.mp (accessRow_of_checkAccess h)
  exact ⟨i, decodeAccess_of_row h hrow⟩

/-- Settles O32: each refusal is the check of its name, and what passes them all decodes to the row of its own offset. -/
theorem accessCheckOrder : Obligations.AccessCheckOrder := by
  refine fun a => ⟨fun hs => decodeAccess_of_check (checkAccess_width hs),
    fun hs hoff => decodeAccess_of_check (checkAccess_misaligned hs hoff),
    fun hs h4 hoff => decodeAccess_of_check (checkAccess_reservedOffset hs h4 hoff),
    fun hs hoff hd => decodeAccess_of_check (checkAccess_readOfWriteOnly hs hoff hd),
    fun hs h4 hlo hhi hd => decodeAccess_of_check (checkAccess_writeOfReadOnly hs h4 hlo hhi hd),
    fun hs h4 hlt hr hw => ?_⟩
  obtain ⟨i, hi⟩ := exists_decodeAccess_of_checkAccess (checkAccess_none hs h4 hlt hr hw)
  refine ⟨i, hi, ?_⟩
  cases hd : a.dir with
  | read =>
    rw [access_of_decodeAccess_read hi hd]
    exact ⟨rfl, rfl, nofun⟩
  | write =>
    rw [access_of_decodeAccess_write hi hd]
    exact ⟨rfl, rfl, fun _ => rfl⟩

/-! ### The data register (R101, R102) -/

theorem readData_of_written {s : State} (h : s.writtenData = true) : readData s = .next (s.answer s.data) :=
  if_pos h

/-- Settles O1: offset 0x04 is writable, and a write of it is the load of DATA. -/
theorem writeDataLoadsDataRegister : Obligations.WriteDataLoadsDataRegister :=
  fun _ _ => ⟨decodeAccess_write (by decide) rfl, rfl⟩

/-- Settles O2: a read of DATA looks at its mark, which WR.DATA sets; an ABSORB is no WR.DATA, so it leaves both (O3). -/
theorem readDataReturnsLastWrite : Obligations.ReadDataReturnsLastWrite := by
  refine fun v s => ⟨decodeAccess_read (by decide) v, readData_of_written, readData_of_unwritten,
    fun t ht => ?_, fun i hi t ht => ?_⟩
  · cases ht
    exact readData_of_written (s := s.loadData v) rfl
  · obtain hkept | ⟨w, rfl, -⟩ := dataPersistsUntilHostWrite.1 i s t ht
    · exact hkept
    · simp at hi

/-! ### The output registers (R111..R120) -/

theorem readDout_of_written {k : Fin 5} {s : State} (h : s.writtenDout[k] = true) :
    readDout k s = .next (s.answer s.dout[k]) :=
  if_pos h

theorem getElem_set_fin {α : Type} {n : Nat} (xs : Vector α n) (k j : Fin n) (x : α) :
    (xs.set k x)[j] = if j = k then x else xs[j] := by
  simp [Vector.getElem_set, Fin.ext_iff, eq_comm]

theorem decodeAccess_rdDout (k : Fin 5) (x : Word) :
    decodeAccess ⟨.read, BitVec.ofNat 8 (0x28 + 4 * k.val), 4, x⟩ = .ok (rdDoutRow k) := by
  refine decodeAccess_read ?_ x
  revert k
  decide

theorem decodeAccess_wrDout (k : Fin 5) (v : Word) :
    decodeAccess ⟨.write, BitVec.ofNat 8 (0x28 + 4 * k.val), 4, v⟩ = .ok (wrDoutRow k v) := by
  refine decodeAccess_write ?_ ?_
  · revert k
    decide
  · fin_cases k <;> rfl

/-- Settles O7: the five offsets are readable, and a read of DOUTi looks at its mark. -/
theorem readDoutReturnsDigestWord : Obligations.ReadDoutReturnsDigestWord := by
  intro s x i
  rw [exec_rdDoutRow]
  exact ⟨decodeAccess_rdDout i x, readDout_of_written, readDout_of_unwritten⟩

/-- Settles O8: WR.DOUTi is the load of word `i`, which leaves the words at other indices, and the mark it sets lets a
read return the word. -/
theorem writeDoutLoadsOneWord : Obligations.WriteDoutLoadsOneWord := by
  intro s v i
  have hword : (s.loadDout i v).dout[i] = v := (getElem_set_fin s.dout i i v).trans (if_pos rfl)
  have hmark : (s.loadDout i v).writtenDout[i] = true := (getElem_set_fin s.writtenDout i i true).trans (if_pos rfl)
  refine ⟨decodeAccess_wrDout i v, s.loadDout i v, exec_wrDoutRow i v s, rfl, fun j => getElem_set_fin _ i j v,
    fun j => getElem_set_fin _ i j true, ?_⟩
  rw [exec_rdDoutRow, readDout_of_written hmark, hword]
  rfl

/-! ### The command port (R31, R100) -/

theorem execWrCmd_of_error {v : Word} {r : Reject} (h : decodeCmd v = .error r) (s : State) :
    exec (.wrCmd v) s = .refused (Refusal.ofReject r) := by
  show execWrCmd v s = _
  rw [execWrCmd, h]

/-- Settles O36: offset 0x00 is write-only, and what a write there does is decided by the decoding of its word. -/
theorem writeCommandPerformsIt : Obligations.WriteCommandPerformsIt :=
  fun s _ => ⟨decodeAccess_write (by decide) rfl,
    decodeAccess_of_check (checkAccess_readOfWriteOnly rfl rfl rfl),
    fun _ hc => execWrCmd_of_ok hc s, fun hr => execWrCmd_of_error hr s, fun hr => execWrCmd_of_error hr s⟩

end Sys2Proof.Machine

namespace Sys2Proof.Machine

/-! ### ABSORBs and the string they carry (41_commands.md section 4) -/

/-- Settles O45: the chunks served one after the other absorb the string they join to, and the run is the queue served in
order. -/
theorem splittingDoesNotMatter : Obligations.SplittingDoesNotMatter := by
  intro s chunks hc ho hf hchunks hl hp
  obtain ⟨d, w, hserve⟩ := serveAll_absorbChunks ⟨hc, ho, hf, hl⟩ hchunks
  have hrun := core_run_of_serveAll hc hserve []
  rw [List.append_nil, ← hp] at hrun
  exact ⟨_, hrun, rfl, State.absorbString_len hl⟩

theorem le_four_of_mem_counts {nb : Nat} (h : nb ∈ [1, 2, 3, 4]) : nb ≤ 4 := by
  simp only [List.mem_cons, List.not_mem_nil, or_false] at h
  omega

theorem ne_zero_of_mem_counts {nb : Nat} (h : nb ∈ [1, 2, 3, 4]) : nb ≠ 0 := by
  rintro rfl
  exact absurd h (by decide)

/-- Settles O44: each row of an ABSORB is the chunk loop, and where no count wraps that is the string byte by byte. -/
theorem absorbEqualsByteAtATime : Obligations.AbsorbEqualsByteAtATime := by
  intro s nb hnb hmax ho hw hf hl
  rw [exec_absorbRow hnb, absorb_eq_absorbString ho hw hf (le_four_of_mem_counts hnb) hmax hl]

/-! ### Where the bytes of an ABSORB stand (R133) -/

/-- Bytes that cross the end of the block: those after the first `k` stand at its start. -/
theorem blockPut_drop_absorbBytes (b : Vector Byte 64) (d : Word) {nb : Nat} (h : nb ≤ 4) (k j : Nat) (hj : j < 64) :
    (blockPut b 0 ((absorbBytes d nb).drop k))[j] = if j < nb - k then wordByte d (k + j) else b[j] := by
  have hdrop (x : Byte) : ((absorbBytes d nb).drop k).getD j x = (absorbBytes d nb).getD (k + j) x := by
    simp only [List.getD_eq_getElem?_getD, List.getElem?_drop]
  rw [blockPut_getElem, if_pos (Nat.zero_le j), Nat.sub_zero, hdrop]
  split
  · exact absorbBytes_getD d h (by omega) _
  · exact List.getD_eq_default _ _ (by rw [absorbBytes_length d h]; omega)

/-- The block where the bytes of an ABSORB have crossed its end: the second chunk stands before the first. -/
theorem State.crossed_put_getElem {s : State} {nb : Nat} (d : Word) (h4 : nb ≤ 4) (hf : s.fill < 64)
    (hcross : 64 < s.fill + nb) (j : Fin 64) :
    ((s.crossed (absorbBytes d nb)).put ((absorbBytes d nb).drop (64 - s.fill))).block[j] =
      if j.val < s.fill + nb - 64 then wordByte d (64 - s.fill + j.val)
      else if s.fill ≤ j.val then wordByte d (j.val - s.fill) else s.block[j] := by
  have hlast : j.val < s.fill + (64 - s.fill) := by omega
  have hsecond : j.val < nb - (64 - s.fill) ↔ j.val < s.fill + nb - 64 := by omega
  have hfirst := blockPut_absorbBytes s.block s.fill d (show 64 - s.fill ≤ 4 by omega) j j.isLt
  rw [← absorbBytes_take d (show 64 - s.fill ≤ nb by omega)] at hfirst
  simp only [hlast, and_true] at hfirst
  exact (blockPut_drop_absorbBytes _ d h4 (64 - s.fill) j j.isLt).trans (if_congr hsecond rfl hfirst)

@[simp] theorem State.put_len (bs : List Byte) (s : State) : (s.put bs).len = s.len := rfl

/-- Settles O14: the three shapes of the chunk loop, each read byte by byte. -/
theorem absorbCopiesCompressesCounts : Obligations.AbsorbCopiesCompressesCounts := by
  intro s nb hnb hmax ho hw hf hl
  have h4 := le_four_of_mem_counts hnb
  have hlen := absorbBytes_length s.data h4
  have habsorb := absorbEqualsByteAtATime s nb hnb hmax ho hw hf hl
  obtain ⟨hroom, hfull, hcross⟩ := exec_absorbRow_shape hnb ho hw hmax hf hl
  refine ⟨_, habsorb, ?_, ?_, fun h => ?_, fun h => ?_, fun h => ?_⟩
  · obtain ⟨b, f, d, lo, hi, e⟩ := s.absorbString_frame (absorbBytes s.data nb)
    rw [e]
  · rw [State.absorbString_len (by rwa [hlen]), hlen]
  · have e := Host.Outcome.next.inj (habsorb.symm.trans (hroom h))
    rw [e]
    refine ⟨?_, rfl, fun j => blockPut_absorbBytes s.block s.fill s.data h4 j j.isLt⟩
    rw [State.count_fill, State.put_fill, hlen]
  · have e := Host.Outcome.next.inj (habsorb.symm.trans (hfull h))
    rw [e, State.compress_put s _ (by rwa [hlen])]
    refine ⟨rfl, rfl, fun j => (blockPut_absorbBytes s.block s.fill s.data h4 j j.isLt).trans ?_⟩
    exact if_congr (and_iff_left (by omega)) rfl rfl
  · have e := Host.Outcome.next.inj (habsorb.symm.trans (hcross h))
    rw [e]
    refine ⟨?_, rfl, State.crossed_put_getElem s.data h4 hf h⟩
    rw [State.count_fill, State.put_fill, State.crossed_fill, List.length_drop, hlen]
    omega

/-! ### A count that reaches 2^64 (R134) -/

/-- The first chunk wraps the count: it is copied and counted, and the ABSORB ends. -/
theorem exec_absorbRow_of_first_wraps {s : State} {nb k : Nat} (hnb : nb ∈ [1, 2, 3, 4])
    (hmax : nb ≤ s.cfg.dataBytesMax) (ho : s.Open) (hw : s.writtenData = true) (hk : k = min nb (64 - s.fill))
    (hwrap : 2 ^ 64 ≤ s.len + 8 * k) :
    exec (absorbRow nb) s = .next ((s.chunk (absorbBytes s.data k)).count k).corrupt := by
  have h4 := le_four_of_mem_counts hnb
  have hlen := absorbBytes_length s.data h4
  have hne : absorbBytes s.data nb ≠ [] := List.ne_nil_of_length_pos (by have := ne_zero_of_mem_counts hnb; omega)
  have hchunk : chunkLen (absorbBytes s.data nb) s = k := by rw [chunkLen, hlen, hk]
  have htake : (absorbBytes s.data nb).take k = absorbBytes s.data k := absorbBytes_take s.data (by omega)
  have hwraps : wraps k (s.chunk (absorbBytes s.data k)) = true :=
    (wraps_iff k _ (by omega)).mpr (by rwa [State.chunk_len])
  obtain ⟨m, rfl⟩ := Nat.exists_eq_succ_of_ne_zero (ne_zero_of_mem_counts hnb)
  rw [exec_absorbRow hnb, absorb_of_open ho hw (Nat.succ_ne_zero m) hmax,
    absorbLoop_wrap m _ s hne (by rwa [hchunk, htake]), hchunk, htake]

/-- The second chunk wraps the count: the block has been crossed, and the rest of the bytes stands in the next. -/
theorem exec_absorbRow_of_second_wraps {s : State} {nb : Nat} (hnb : nb ∈ [1, 2, 3, 4])
    (hmax : nb ≤ s.cfg.dataBytesMax) (ho : s.Open) (hw : s.writtenData = true) (hf : s.fill < 64) (hcross : 64 < s.fill + nb)
    (hfirst : s.len + 8 * (64 - s.fill) < 2 ^ 64) (hwrap : 2 ^ 64 ≤ s.len + 8 * nb) :
    exec (absorbRow nb) s =
      .next (((s.crossed (absorbBytes s.data nb)).put ((absorbBytes s.data nb).drop (64 - s.fill))).count
        (nb - (64 - s.fill))).corrupt := by
  have h4 := le_four_of_mem_counts hnb
  have hlen := absorbBytes_length s.data h4
  have hcl := State.crossed_len (absorbBytes s.data nb) s hfirst
  have hdrop : ((absorbBytes s.data nb).drop (64 - s.fill)).length = nb - (64 - s.fill) := by
    rw [List.length_drop, hlen]
  obtain ⟨m, rfl⟩ : ∃ m, nb = m + 2 := ⟨nb - 2, by omega⟩
  rw [exec_absorbRow hnb, absorb_of_open ho hw (by omega) hmax, absorbLoop_cross (m + 1) _ s hf (by omega) hfirst]
  have hk : chunkLen ((absorbBytes s.data (m + 2)).drop (64 - s.fill)) (s.crossed (absorbBytes s.data (m + 2))) =
      m + 2 - (64 - s.fill) := by
    rw [chunkLen, hdrop, State.crossed_fill]
    omega
  have htake := List.take_of_length_le hdrop.le
  rw [absorbLoop_wrap m _ _ (List.ne_nil_of_length_pos (by omega)) (by
      rw [hk, wraps_iff _ _ (by omega), State.chunk_len, hcl]
      omega),
    hk, htake, State.chunk_of_room _ _ (by rw [State.crossed_fill, hdrop]; omega)]

/-- Settles O15: which of the two chunks wraps decides where the ABSORB ends. -/
theorem absorbWrapCorruptsAndStops : Obligations.AbsorbWrapCorruptsAndStops := by
  intro s nb hnb hmax ho hw hf hl
  have h4 := le_four_of_mem_counts hnb
  have hlen := absorbBytes_length s.data h4
  have hlt := s.len_lt
  obtain ⟨k, hk⟩ : ∃ k, k = min nb (64 - s.fill) := ⟨_, rfl⟩
  have hklen := absorbBytes_length s.data (show k ≤ 4 by omega)
  by_cases hfirst : 2 ^ 64 ≤ s.len + 8 * k
  · refine ⟨_, exec_absorbRow_of_first_wraps hnb hmax ho hw hk hfirst, ?_, ?_, ?_⟩
    · rw [State.chunk_frame]
      rfl
    · rintro _ rfl -
      rw [← hk, absorbBytes_take s.data (show k ≤ nb by omega)]
      refine ⟨?_, fun j => ?_, fun h => ?_, fun h => ?_⟩
      · rw [State.corrupt_len, State.count_len _ _ (by omega), State.chunk_len]
        omega
      · rw [State.corrupt_block, State.count_block, State.chunk_block]
        exact blockPut_absorbBytes s.block s.fill s.data (show k ≤ 4 by omega) j j.isLt
      · rw [State.chunk_of_room _ _ (by omega)]
        refine ⟨?_, rfl⟩
        rw [State.corrupt_fill, State.count_fill, State.put_fill, hklen]
      · rw [State.chunk_of_full _ _ (by omega), State.compress_put s _ (by omega)]
        exact ⟨rfl, rfl⟩
    · rintro _ rfl h
      omega
  · have hcross : 64 < s.fill + nb := by omega
    obtain rfl : k = 64 - s.fill := by omega
    refine ⟨_, exec_absorbRow_of_second_wraps hnb hmax ho hw hf hcross (by omega) hl, rfl, ?_, ?_⟩
    · rintro _ rfl h
      omega
    · rintro _ rfl -
      rw [← hk]
      refine ⟨?_, ?_, rfl⟩
      · rw [State.corrupt_len, State.count_len _ _ (by omega), State.put_len, State.crossed_len _ _ (by omega)]
        omega
      · rw [State.corrupt_fill, State.count_fill, State.put_fill, State.crossed_fill, List.length_drop, hlen]
        omega

/-! ### Finished and corrupted contexts (R132, R137, R138) -/

/-- `ABSORB 0` on a created context (R132 (a)). -/
theorem exec_absorb0_of_init {s : State} (hi : s.init = true) : exec .absorb0 s = .next s := by
  rw [exec_absorb0, absorb_of_le (Nat.zero_le _), if_neg (by simp [hi]), if_pos rfl]

/-- An ABSORB of bytes on a finished context (R132 (b)). -/
theorem absorb_of_finished {nb : Nat} {s : State} (hi : s.init = true) (hf : s.computed = true ∨ s.corrupted = true)
    (h0 : nb ≠ 0) (hmax : nb ≤ s.cfg.dataBytesMax) : absorb nb s = .next s.corrupt := by
  rw [absorb_of_le hmax, if_neg (by simp [hi]), if_neg h0, if_pos hf]

theorem execFinalize_of_corrupted {s : State} (hi : s.init = true) (hk : s.corrupted = true) :
    execFinalize s = .next s := by
  rw [execFinalize, if_neg (by simp [hi]), if_pos hk]

theorem State.corrupt_of_corrupted {s : State} (hk : s.corrupted = true) : s.corrupt = s := by
  rw [State.corrupt, ← hk]

/-- FINALIZE on a created, uncorrupted context ends in the output copy of a computed one. -/
theorem exists_copyOut_of_execFinalize {s t : State} (h : execFinalize s = .next t) (hi : s.init = true)
    (hk : s.corrupted = false) :
    ∃ u : State, t = u.copyOut ∧ u.init = true ∧ u.computed = true ∧ u.corrupted = false := by
  obtain ⟨h0, -⟩ | ⟨-, ⟨hc, -⟩ | ⟨-, hc, rfl⟩ | ⟨-, -, rfl⟩⟩ := execFinalize_next h
  · exact absurd (hi.symm.trans h0) (by decide)
  · exact absurd (hk.symm.trans hc) (by decide)
  · exact ⟨s, rfl, hi, hc, hk⟩
  · obtain ⟨b, d, e⟩ := s.finish_frame
    refine ⟨s.finish, rfl, ?_⟩
    rw [e]
    exact ⟨hi, rfl, hk⟩

/-- Settles O12: RESET writes fixed values, so that a second one writes the same. -/
theorem resetCreatesContext : Obligations.ResetCreatesContext :=
  fun s => ⟨rfl, s.createContext, rfl, execWrCmd_of_ok (c := .reset) rfl s, rfl, rfl⟩

/-- Settles O13: the count 0 is tested before the flags, and the flags before DATA's mark. -/
theorem absorbCheckOrder : Obligations.AbsorbCheckOrder :=
  fun _ hi => ⟨exec_absorb0_of_init hi, fun hf =>
    ⟨absorb_of_finished hi hf (by decide), absorb_of_finished hi hf (by decide),
      absorb_of_finished hi hf (by decide), absorb_of_finished hi hf (by decide)⟩⟩

/-- Settles O18: CORRUPTED is tested before COMPUTED, by the row and by the word of `CMD` that spells it. -/
theorem finalizeOnCorruptedIsNoOp : Obligations.FinalizeOnCorruptedIsNoOp :=
  fun s hi hk => ⟨execFinalize_of_corrupted hi hk,
    (execWrCmd_of_ok (c := .finalize) rfl s).trans (execFinalize_of_corrupted hi hk)⟩

/-- Settles O19: where COMPUTED is set FINALIZE does not pad. -/
theorem finalizeOnComputedCopiesAgain : Obligations.FinalizeOnComputedCopiesAgain := by
  intro s hi hk hc
  refine (execFinalize_of_uncorrupted hi hk).trans ?_
  rw [if_pos hc]
  rfl

/-- Settles O20: what a FINALIZE leaves is computed and already copied out, and an ABSORB of bytes corrupts it. -/
theorem finalizeTwiceGivesSameDigest : Obligations.FinalizeTwiceGivesSameDigest := by
  intro s t h hi hk
  obtain ⟨u, rfl, hui, huc, huk⟩ := exists_copyOut_of_execFinalize h hi hk
  refine ⟨?_, exec_absorb0_of_init hui, fun nb hnb hmax => ⟨u.copyOut.corrupt, ?_, rfl, ?_⟩⟩
  · exact finalizeOnComputedCopiesAgain u.copyOut hui huk huc
  · rw [exec_absorbRow hnb]
    exact absorb_of_finished hui (.inl huc) (ne_zero_of_mem_counts hnb) hmax
  · exact execFinalize_of_corrupted hui rfl

/-! ### The flags over all instructions -/

/-- An instruction that performs a command is that command, written to `CMD` or as a row (R70, R100). -/
theorem exec_of_commandOf {i : Instr} {c : Cmd} (h : commandOf i = some c) (s : State) : exec i s = performCmd c s := by
  cases i with
  | wrCmd v =>
    rw [commandOf] at h
    cases hd : decodeCmd v with
    | ok c' =>
      rw [hd] at h
      cases h
      rw [execWrCmd_of_ok hd, performCmd_eq_exec]
    | error r =>
      rw [hd] at h
      cases h
  | reset | absorb0 | absorb1 | absorb2 | absorb3 | absorb4 | finalize =>
    cases h
    rfl
  | _ => cases h

/-- Settles O21: CORRUPTED ends every command but RESET before it writes anything else. -/
theorem corruptionIsSticky : Obligations.CorruptionIsSticky := by
  intro s hi hk i c hc hne hmax
  have habsorb {nb : Nat} (h0 : nb ≠ 0) (hmax : nb ≤ s.cfg.dataBytesMax) : absorb nb s = .next s := by
    rw [absorb_of_finished hi (.inr hk) h0 hmax, State.corrupt_of_corrupted hk]
  rw [exec_of_commandOf hc]
  cases c with
  | reset => exact absurd rfl hne
  | absorb0 => exact exec_absorb0_of_init hi
  | absorb1 | absorb2 | absorb3 | absorb4 => exact habsorb (by decide) hmax
  | finalize => exact execFinalize_of_corrupted hi hk

/-- Of the commands only RESET writes H once COMPUTED is set. -/
theorem performCmd_h_of_computed {c : Cmd} {s t : State} (hc : s.computed = true) (hne : c ≠ .reset)
    (h : performCmd c s = .next t) : t.h = s.h := by
  obtain ⟨rfl, -⟩ | ⟨-, -, rfl⟩ | ⟨-, -, rfl⟩ | ⟨nb, -, -, ha⟩ | ⟨-, hf⟩ := performCmd_next h
  · exact absurd rfl hne
  · rfl
  · rfl
  · obtain ⟨-, rfl⟩ | ⟨-, ⟨-, rfl⟩ | ⟨-, -, rfl⟩ | ⟨-, h0, -⟩ | ⟨-, h0, -⟩⟩ := absorb_next ha
    · rfl
    · rfl
    · rfl
    · exact absurd (hc.symm.trans h0) (by decide)
    · exact absurd (hc.symm.trans h0) (by decide)
  · obtain ⟨-, rfl⟩ | ⟨-, ⟨-, rfl⟩ | ⟨-, -, rfl⟩ | ⟨-, h0, -⟩⟩ := execFinalize_next hf
    · rfl
    · rfl
    · rfl
    · exact absurd (hc.symm.trans h0) (by decide)

/-- Settles O22: COMPUTED by its one reason to be set (O24), H by the commands that could write it. -/
theorem digestFrozenUntilReset : Obligations.DigestFrozenUntilReset := by
  intro i s t hc h hne
  refine ⟨?_, (computedSetByFinalizeOnly i s t h).mpr (.inl ⟨hc, hne⟩)⟩
  obtain ⟨-, ⟨v, rfl⟩ | ⟨r, rfl⟩⟩ | ⟨v, -, rfl⟩ | ⟨k, v, -, rfl⟩ | ⟨c, hcmd, hp⟩ := exec_next h
  · rfl
  · rfl
  · rfl
  · rfl
  · exact performCmd_h_of_computed hc (fun e => hne (e ▸ hcmd)) hp

end Sys2Proof.Machine

namespace Sys2Proof.Machine

/-! ### The bit counter (42_compress_pad.md R158) -/

/-- Settles O16: a chunk is so short that it carries at most once. -/
theorem countAddsEightBitsPerByte : Obligations.CountAddsEightBitsPerByte := by
  intro s k hk
  have hcarry : 8 * k < 2 ^ 32 := by have := le_four_of_mem_counts hk; omega
  exact ⟨s.count_len k hcarry, wraps_iff k s hcarry, rfl⟩

/-! ### The legal parameters (00_scope.md R9, 42_compress_pad.md R156) -/

theorem rotOk_iff (r : Rot) :
    rotOk r = true ↔ r.rIn < 32 ∧ r.rTop < 32 ∧ r.rB < 32 ∧ r.rC < 32 ∧ r.rD < 32 ∧ r.rE < 32 := by
  simp only [rotOk, Bool.and_eq_true, decide_eq_true_eq, and_assoc]

theorem paramsOk_iff (c : Config) :
    paramsOk c = true ↔ rotOk c.rot = true ∧ (c.padLimit = 55 ∨ c.padLimit = 56) := by
  simp only [paramsOk, Bool.and_eq_true, Bool.or_eq_true, decide_eq_true_eq]

/-- What a read answers is never a refusal, whether or not it returns a value. -/
theorem ite_next_ne_refused {c : Prop} [Decidable c] (s t : State) (r : Refusal) :
    (if c then .next s else .next t : Answer) ≠ .refused r := by
  split <;> nofun

theorem execFinalize_ne_refused (s : State) (r : Refusal) : execFinalize s ≠ .refused r := by
  rw [execFinalize]; repeat' split
  all_goals nofun

theorem absorb_refused {nb : Nat} {s : State} {r : Refusal} (h : absorb nb s = .refused r) : r = .reservedNb := by
  by_cases hmax : nb ≤ s.cfg.dataBytesMax
  · obtain ⟨t, ht⟩ := absorb_answers_of_le hmax
    rw [ht] at h
    cases h
  · rw [absorb_refused_of_lt (Nat.not_le.mp hmax)] at h
    cases h
    rfl

/-- The one refusal of a command is that of an ABSORB's count. -/
theorem performCmd_refused {c : Cmd} {s : State} {r : Refusal} (h : performCmd c s = .refused r) :
    r = .reservedNb := by
  cases c with
  | reset => cases h
  | absorb0 => exact absorb_refused (nb := 0) h
  | absorb1 => exact absorb_refused (nb := 1) h
  | absorb2 => exact absorb_refused (nb := 2) h
  | absorb3 => exact absorb_refused (nb := 3) h
  | absorb4 => exact absorb_refused (nb := 4) h
  | finalize => exact absurd h (execFinalize_ne_refused s r)

/-- An instruction is refused by a reason of R172 that decoding can give: only CMD's word and an ABSORB's count are. -/
theorem exec_refused {i : Instr} {s : State} {r : Refusal} (h : exec i s = .refused r) :
    ∃ e, r = Refusal.ofReject e := by
  cases i with
  | wrCmd v =>
    cases hd : decodeCmd v with
    | ok c =>
      rw [execWrCmd_of_ok hd, ← performCmd_eq_exec] at h
      exact ⟨.reservedNb, performCmd_refused h⟩
    | error e =>
      rw [execWrCmd_of_error hd] at h
      cases h
      exact ⟨e, rfl⟩
  | wrData | wrDout0 | wrDout1 | wrDout2 | wrDout3 | wrDout4 => cases h
  | rdData | rdStatus | rdLenlo | rdLenhi | rdH0 | rdH1 | rdH2 | rdH3 | rdH4
  | rdDout0 | rdDout1 | rdDout2 | rdDout3 | rdDout4 => exact absurd h (ite_next_ne_refused _ _ r)
  | reset | absorb0 | absorb1 | absorb2 | absorb3 | absorb4 | finalize =>
    rw [exec_of_commandOf rfl] at h
    exact ⟨.reservedNb, performCmd_refused h⟩

theorem performAccess_refused {a : Access} {s : State} {r : Refusal} (h : performAccess exec a s = .refused r) :
    ∃ e, r = Refusal.ofReject e := by
  cases hd : decodeAccess a with
  | ok i =>
    rw [performAccess_of_ok hd] at h
    exact exec_refused h
  | error e =>
    rw [performAccess_of_error hd] at h
    cases h
    exact ⟨e, rfl⟩

theorem ofReject_ne_badParameter (e : Reject) : Refusal.ofReject e ≠ .badParameter := by
  cases e <;> decide

/-- A step asks for legal parameters before anything else, and no event is refused by that name (R156, R172; log 7). -/
theorem step_badParameter_iff (s : State) : step s = .refused .badParameter ↔ paramsOk s.cfg = false := by
  refine ⟨fun h => ?_, fun hc => if_pos hc⟩
  by_contra hc
  rw [Bool.not_eq_false] at hc
  match hp : s.pending with
  | [] =>
    rw [step_idle hc hp] at h
    cases h
  | .resetLine :: rest =>
    rw [step_resetLine hc hp] at h
    cases h
  | .access a :: rest =>
    rw [step_access hc hp] at h
    obtain ⟨e, he⟩ := performAccess_refused h
    exact ofReject_ne_badParameter e he.symm

/-- Settles O39: a step is refused by this name where `paramsOk` fails, which is a bound on each of the parameters. -/
theorem badParametersAreRefused : Obligations.BadParametersAreRefused := by
  intro s
  rw [step_badParameter_iff, ← Bool.not_eq_true, paramsOk_iff, rotOk_iff]
  omega

/-! ### FINALIZE (R135, R155, R156, R157) -/

/-- FINALIZE on an open context pads, sets COMPUTED and copies H out (R135). -/
theorem execFinalize_of_open {s : State} (ho : s.Open) : execFinalize s = .next s.finish.copyOut := by
  obtain ⟨hi, hc, hk⟩ := ho
  rw [execFinalize_of_uncorrupted hi hk, hc]
  rfl

/-- Settles O17: the padding of a FINALIZE leaves room for the length field in its first block, or needs a second one. -/
theorem finalizePadsAndCopiesDigest : Obligations.FinalizePadsAndCopiesDigest := by
  intro s ho hf hc
  have hpl : s.cfg.padLimit ≤ 56 := by have := ((paramsOk_iff _).mp hc).2; omega
  have hfin := execFinalize_of_open ho
  refine ⟨_, hfin, (execWrCmd_of_ok (c := .finalize) rfl s).trans hfin, ?_, s.pad_h_of_room hf hpl, s.pad_h_of_extra hf⟩
  obtain ⟨b, h, e⟩ := s.finish_frame
  rw [e]
  rfl

/-! ### The round and the schedule (R150, R151) -/

theorem rotl32_eq_rotateLeft (x : Word) {n : Nat} (hn : n < 32) : rotl32 x n = x.rotateLeft n := by
  rw [rotl32, BitVec.rotateLeft_def, Nat.mod_eq_of_lt hn]

/-- Settles O26: R11's rotation is the library's for each of the six legal amounts. -/
theorem roundMatchesFormula : Obligations.RoundMatchesFormula := by
  refine ⟨rfl, rfl, fun cfg A B C D E w hc => ?_⟩
  obtain ⟨hIn, hTop, hB, hC, hD, hE⟩ := (rotOk_iff _).mp ((paramsOk_iff _).mp hc).1
  simp only [mdeRound, roundSum, ch, rotl32_eq_rotateLeft _ hIn, rotl32_eq_rotateLeft _ hTop,
    rotl32_eq_rotateLeft _ hB, rotl32_eq_rotateLeft _ hC, rotl32_eq_rotateLeft _ hD, rotl32_eq_rotateLeft _ hE]

/-- The sixteen words of a block, by index. -/
theorem schedule_block (b : Vector Byte 64) :
    schedule b.toList =
      List.ofFn fun t : Fin 16 => be32 b[4 * t.val] b[4 * t.val + 1] b[4 * t.val + 2] b[4 * t.val + 3] := by
  have hlen : (schedule b.toList).length = 16 := by rw [schedule_length, Vector.length_toList]
  refine List.ext_getElem (by rw [hlen, List.length_ofFn]) fun t ht ht' => ?_
  have hword := schedule_getElem? b.toList t (by rw [Vector.length_toList]; omega)
  rw [List.getElem?_eq_getElem ht, Option.some.injEq] at hword
  simp only [List.getElem_ofFn]
  exact hword

/-- Settles O25: the rounds over the words of the block, fed forward into H. -/
theorem compressFoldsBlockIntoState : Obligations.CompressFoldsBlockIntoState := by
  rintro s _ rfl
  rw [← schedule_block]
  rfl

/-! ### The last words of a block (95_test_vectors.md section 2.6) -/

theorem schedule_append {m : List Byte} (hm : m.length % 4 = 0) (x : List Byte) :
    schedule (m ++ x) = schedule m ++ schedule x := by
  induction m using schedule.induct with
  | case1 b0 b1 b2 b3 rest ih =>
    simp only [List.length_cons] at hm
    simp only [List.cons_append, schedule, ih (by omega)]
  | case2 m h =>
    match m, h with
    | [], _ => rfl
    | b0 :: b1 :: b2 :: b3 :: rest, h => exact absurd rfl (h b0 b1 b2 b3 rest)

/-- A word enters the working words at A and moves on by one place a round, so that three rounds do not bring it to D. -/
theorem rounds_three (cfg : Config) (x : Work) {ws : List Word} (hws : ws.length = 3) :
    (rounds cfg x ws).d = rotl32 (rotl32 (rotl32 x.a cfg.rot.rB) cfg.rot.rC) cfg.rot.rD ∧
    (rounds cfg x ws).e = rotl32 (rotl32 (rotl32 x.b cfg.rot.rC) cfg.rot.rD) cfg.rot.rE := by
  match ws, hws with
  | [_, _, _], _ => exact ⟨rfl, rfl⟩

/-- Settles O27: the first 52 bytes are thirteen words, and the three rounds of the other words leave D and E what they are
after those. -/
theorem lastWordsMissTwoStateWords : Obligations.LastWordsMissTwoStateWords := by
  intro cfg h m x y hm hx hy
  have hrounds {z : List Byte} (hz : z.length = 12) (w : Work) :=
    rounds_three cfg (rounds cfg w (schedule m)) (ws := schedule z) (by rw [schedule_length, hz])
  have hsplit (z : List Byte) (w : Work) :
      rounds cfg w (schedule (m ++ z)) = rounds cfg (rounds cfg w (schedule m)) (schedule z) := by
    rw [schedule_append (by rw [hm]), rounds, List.foldl_append]
    rfl
  constructor
  · show h[3] + (rounds _ _ _).d = h[3] + (rounds _ _ _).d
    rw [hsplit, hsplit, (hrounds hx _).1, (hrounds hy _).1]
  · show h[4] + (rounds _ _ _).e = h[4] + (rounds _ _ _).e
    rw [hsplit, hsplit, (hrounds hx _).2, (hrounds hy _).2]

/-! ### The padded message (R160, R161) -/

/-- Where the padded message ends: one block after the last whole block of the message, or two. -/
theorem padMessage_length_eq {padLimit : Nat} (hpl : padLimit = 55 ∨ padLimit = 56) (m : List Byte) :
    (padMessage padLimit m).length = 64 * (m.length / 64 + if padLimit ≤ m.length % 64 then 2 else 1) := by
  rw [padMessage_length]
  split
  · rw [padZeros_of_extra hpl (by omega)]
    omega
  · rw [padZeros_of_room hpl (by omega)]
    omega

/-- The bytes of a word read as a big-endian number, after a number `n`. -/
theorem foldl_bytesBe32 (n : Nat) (w : Word) :
    (bytesBe32 w).foldl (fun n b => n * 256 + b.toNat) n = n * 2 ^ 32 + w.toNat := by
  have hw := w.isLt
  simp only [bytesBe32, List.foldl_cons, List.foldl_nil, wordByte_toNat]
  omega

theorem padMessage_drop (padLimit : Nat) (m : List Byte) :
    (padMessage padLimit m).drop ((padMessage padLimit m).length - 8) =
      bytesBe32 (BitVec.ofNat 32 (8 * m.length / 2 ^ 32)) ++ bytesBe32 (BitVec.ofNat 32 (8 * m.length)) := by
  rw [padMessage, List.append_assoc _ (bytesBe32 _) (bytesBe32 _)]
  refine List.drop_left' ?_
  rw [List.length_append (bs := bytesBe32 _ ++ _)]
  rfl

/-- Settles O47: the zeros end the length on a block, and the length field is the two halves of the bit count. -/
theorem paddedMessageIsWholeBlocks : Obligations.PaddedMessageIsWholeBlocks := by
  intro padLimit m hpl hl
  rw [padMessage_drop, List.foldl_append, foldl_bytesBe32, foldl_bytesBe32, BitVec.toNat_ofNat, BitVec.toNat_ofNat,
    padMessage_length_eq hpl]
  refine ⟨by omega, by omega, ?_, by omega⟩
  rw [padMessage, List.append_assoc, List.append_assoc (m ++ [0x80])]
  exact List.prefix_append _ _

end Sys2Proof.Machine

namespace Sys2Proof.Machine

/-! ### What corrupts a context (60_exceptions.md R171) -/

theorem performCmd_absorbCmd {nb : Nat} (hnb : nb ∈ [1, 2, 3, 4]) (s : State) :
    performCmd (absorbCmd nb) s = absorb nb s :=
  (performCmd_eq_exec _ s).trans (exec_absorbRow hnb s)

theorem exec_corrupted_of_commandOf_none {i : Instr} {s t : State} (hc : commandOf i = none)
    (h : exec i s = .next t) : t.corrupted = s.corrupted := by
  rw [exec_frame_of_commandOf_none hc h]

theorem execFinalize_corrupted {s t : State} (h : execFinalize s = .next t) : t.corrupted = s.corrupted := by
  rw [execFinalize_frame h]

/-- The chunk loop on an open context corrupts it exactly if the count of all its bytes reaches 2^64 (R134). -/
theorem absorb_corrupted_of_open {nb : Nat} {s t : State} (hnb : nb ∈ [1, 2, 3, 4]) (ho : s.Open)
    (hw : s.writtenData = true) (hf : s.fill < 64) (h : absorb nb s = .next t) :
    t.corrupted = true ↔ 2 ^ 64 ≤ s.len + 8 * nb := by
  have hmax := absorb_next_le h
  by_cases hl : 2 ^ 64 ≤ s.len + 8 * nb
  · obtain ⟨u, hu, hframe, -, -⟩ := absorbWrapCorruptsAndStops s nb hnb hmax ho hw hf hl
    rw [exec_absorbRow hnb, h] at hu
    cases hu
    rw [hframe]
    exact iff_of_true rfl hl
  · rw [absorb_eq_absorbString ho hw hf (le_four_of_mem_counts hnb) hmax (Nat.not_le.mp hl)] at h
    cases h
    obtain ⟨-, -, hk⟩ := ho.absorbString (absorbBytes s.data nb)
    exact iff_of_false (by simp [hk]) hl

/-- CZ1 to CZ3: what an ABSORB of bytes asks for before it corrupts a context. -/
theorem absorb_corrupted_iff {nb : Nat} {s t : State} (hnb : nb ∈ [1, 2, 3, 4]) (hf : s.fill < 64)
    (hk : s.corrupted = false) (h : absorb nb s = .next t) :
    t.corrupted = true ↔
      s.init = true ∧ (s.computed = true ∨ (s.writtenData = true ∧ 2 ^ 64 ≤ s.len + 8 * nb)) := by
  obtain ⟨hi, rfl⟩ | ⟨hi, ⟨h0, -⟩ | ⟨-, hdone, rfl⟩ | ⟨-, hc, -, hw, rfl⟩ | ⟨-, hc, -, hw, -⟩⟩ := absorb_next h
  · simp [hk, hi]
  · exact absurd h0 (ne_zero_of_mem_counts hnb)
  · have hc : s.computed = true := by simpa [hk] using hdone
    simp [hi, hc]
  · simp [hk, hc, hw]
  · rw [absorb_corrupted_of_open hnb ⟨hi, hc, hk⟩ hw hf h]
    simp [hi, hc, hw]

theorem absorb_corrupted_of_corrupted {nb : Nat} {s t : State} (hk : s.corrupted = true)
    (h : absorb nb s = .next t) : t.corrupted = true := by
  obtain ⟨-, rfl⟩ | ⟨-, ⟨-, rfl⟩ | ⟨-, -, rfl⟩ | ⟨-, -, h0, -⟩ | ⟨-, -, h0, -⟩⟩ := absorb_next h
  · exact hk
  · exact hk
  · rfl
  · exact absurd (hk.symm.trans h0) (by decide)
  · exact absurd (hk.symm.trans h0) (by decide)

/-- Of the commands only an ABSORB of bytes sets CORRUPTED. -/
theorem performCmd_corrupted_iff {c : Cmd} {s t : State} (hf : s.fill < 64) (hk : s.corrupted = false)
    (h : performCmd c s = .next t) :
    t.corrupted = true ↔
      ∃ nb ∈ [1, 2, 3, 4], c = absorbCmd nb ∧ s.init = true ∧
        (s.computed = true ∨ (s.writtenData = true ∧ 2 ^ 64 ≤ s.len + 8 * nb)) := by
  refine ⟨fun ht => ?_, fun ⟨nb, hnb, hcmd, hcause⟩ => ?_⟩
  · obtain ⟨-, rfl⟩ | ⟨-, -, rfl⟩ | ⟨-, -, rfl⟩ | ⟨nb, hnb, rfl, ha⟩ | ⟨-, hfin⟩ := performCmd_next h
    · cases ht
    · exact absurd (hk.symm.trans ht) (by decide)
    · exact absurd (hk.symm.trans ht) (by decide)
    · exact ⟨nb, hnb, rfl, (absorb_corrupted_iff hnb hf hk ha).mp ht⟩
    · rw [execFinalize_corrupted hfin, hk] at ht
      cases ht
  · rw [hcmd, performCmd_absorbCmd hnb] at h
    exact (absorb_corrupted_iff hnb hf hk h).mpr hcause

/-- Of the commands only RESET clears CORRUPTED. -/
theorem performCmd_uncorrupted_iff {c : Cmd} {s t : State} (hk : s.corrupted = true)
    (h : performCmd c s = .next t) : t.corrupted = false ↔ c = .reset := by
  obtain ⟨rfl, rfl⟩ | ⟨rfl, -, rfl⟩ | ⟨rfl, -, rfl⟩ | ⟨nb, -, rfl, ha⟩ | ⟨rfl, hfin⟩ := performCmd_next h
  · simp
  · simp [hk]
  · simp [hk]
  · simp [absorb_corrupted_of_corrupted hk ha, absorbCmd_ne_reset]
  · simp [execFinalize_corrupted hfin, hk]

/-- Settles O23: an instruction that performs no command leaves CORRUPTED, and the commands are those two lemmas. -/
theorem corruptionCauses : Obligations.CorruptionCauses := by
  intro i s t hf h
  cases hc : commandOf i with
  | none =>
    rw [exec_corrupted_of_commandOf_none hc h]
    exact ⟨fun hk => by simp [hk], fun hk => by simp [hk]⟩
  | some c =>
    rw [exec_of_commandOf hc] at h
    simp only [Option.some.injEq]
    exact ⟨fun hk => performCmd_corrupted_iff hf hk h, fun hk => performCmd_uncorrupted_iff hk h⟩

/-! ### The fault table (60_exceptions.md R173) -/

theorem performCmd_of_uninit {c : Cmd} {s t : State} (hi : s.init = false) (hne : c ≠ .reset)
    (h : performCmd c s = .next t) : t = s.recordFault .uninitContext := by
  obtain ⟨rfl, -⟩ | ⟨-, h1, -⟩ | ⟨-, -, rfl⟩ | ⟨nb, -, -, ha⟩ | ⟨-, hfin⟩ := performCmd_next h
  · exact absurd rfl hne
  · exact absurd (hi.symm.trans h1) (by decide)
  · rfl
  · exact Host.Outcome.next.inj (ha.symm.trans (absorb_of_uninit hi (absorb_next_le ha)))
  · exact Host.Outcome.next.inj (hfin.symm.trans (execFinalize_of_uninit hi))

theorem performCmd_of_unwritten {c : Cmd} {s t : State} (ho : s.Open) (hw : s.writtenData = false)
    (hb : cmdBytes c ≠ 0) (h : performCmd c s = .next t) : t = s.recordFault .unwrittenRegister := by
  obtain ⟨rfl, -⟩ | ⟨rfl, -⟩ | ⟨rfl, -⟩ | ⟨nb, hnb, -, ha⟩ | ⟨rfl, -⟩ := performCmd_next h
  · exact absurd rfl hb
  · exact absurd rfl hb
  · exact absurd rfl hb
  · exact Host.Outcome.next.inj
      (ha.symm.trans (absorb_of_unwritten ho hw (ne_zero_of_mem_counts hnb) (absorb_next_le ha)))
  · exact absurd rfl hb

theorem exec_of_uninitAccess {i : Instr} {s t : State} (ha : UninitAccess i s) (h : exec i s = .next t) :
    t = s.recordFault .uninitContext := by
  obtain ⟨hi, hread | hcmd⟩ := ha
  · exact Host.Outcome.next.inj (h.symm.trans (exec_contextReadRow_of_uninit hread hi))
  · obtain ⟨c, hc, hne⟩ := (Option.any_eq_true ..).mp hcmd
    exact performCmd_of_uninit hi (of_decide_eq_true hne) (exec_of_commandOf hc s ▸ h)

theorem exec_of_unwrittenAccess {i : Instr} {s t : State} (ha : UnwrittenAccess i s) (h : exec i s = .next t) :
    t = s.recordFault .unwrittenRegister := by
  obtain ⟨rfl, hw⟩ | ⟨k, rfl, hw⟩ | ⟨ho, hw, hcmd⟩ := ha
  · exact Host.Outcome.next.inj (h.symm.trans (readData_of_unwritten hw))
  · exact Host.Outcome.next.inj (h.symm.trans ((exec_rdDoutRow k s).trans (readDout_of_unwritten hw)))
  · obtain ⟨c, hc, hb⟩ := (Option.any_eq_true ..).mp hcmd
    exact performCmd_of_unwritten ho hw (of_decide_eq_true hb) (exec_of_commandOf hc s ▸ h)

theorem mem_contextReadRows_of_viewOf : ∀ i ∈ readRows, (viewOf i).isSome = true → i ∈ contextReadRows := by
  decide

theorem cmdBytes_absorbCmd_ne_zero (nb : Nat) : cmdBytes (absorbCmd nb) ≠ 0 := by
  unfold absorbCmd; split <;> decide

theorem absorb_faults {nb : Nat} {s t : State} (hi : s.init = true) (hw : ¬ (s.Open ∧ s.writtenData = false))
    (h : absorb nb s = .next t) : t.faults = s.faults := by
  obtain ⟨h0, -⟩ | ⟨-, ⟨-, rfl⟩ | ⟨-, -, rfl⟩ | ⟨-, hc, hk, hw0, -⟩ | ⟨-, -, -, -, rfl⟩⟩ := absorb_next h
  · exact absurd (hi.symm.trans h0) (by decide)
  · rfl
  · rfl
  · exact absurd ⟨⟨hi, hc, hk⟩, hw0⟩ hw
  · obtain ⟨b, f, d, lo, hi', k, e⟩ := absorbLoop_frame nb (absorbBytes s.data nb) s
    rw [e]

theorem execFinalize_faults {s t : State} (hi : s.init = true) (h : execFinalize s = .next t) :
    t.faults = s.faults := by
  obtain ⟨h0, -⟩ | ⟨-, ⟨-, rfl⟩ | ⟨-, -, rfl⟩ | ⟨-, -, rfl⟩⟩ := execFinalize_next h
  · exact absurd (hi.symm.trans h0) (by decide)
  · rfl
  · rfl
  · obtain ⟨b, d, e⟩ := s.finish_frame
    rw [e]
    rfl

/-- A command that R173 does not list leaves the fault record. -/
theorem performCmd_faults {c : Cmd} {s t : State} (hu : c = .reset ∨ s.init = true)
    (hw : cmdBytes c = 0 ∨ ¬ (s.Open ∧ s.writtenData = false)) (h : performCmd c s = .next t) :
    t.faults = s.faults := by
  obtain ⟨-, rfl⟩ | ⟨-, -, rfl⟩ | ⟨rfl, h0, -⟩ | ⟨nb, -, rfl, ha⟩ | ⟨rfl, hfin⟩ := performCmd_next h
  · rfl
  · rfl
  · exact absurd (h0.symm.trans (hu.resolve_left (by decide))) (by decide)
  · exact absorb_faults (hu.resolve_left (absorbCmd_ne_reset nb))
      (hw.resolve_left (cmdBytes_absorbCmd_ne_zero nb)) ha
  · exact execFinalize_faults (hu.resolve_left (by decide)) hfin

/-- A read that R173 does not list leaves the fault record. -/
theorem exec_readRow_faults {i : Instr} {s t : State} (hi : i ∈ readRows) (hu : ¬ UninitAccess i s)
    (hw : ¬ UnwrittenAccess i s) (h : exec i s = .next t) : t.faults = s.faults := by
  obtain rfl | hview | ⟨k, rfl⟩ := readRows_cases i hi
  · obtain ⟨-, rfl⟩ | ⟨h0, -⟩ := readData_next h
    · rfl
    · exact absurd (.inl ⟨rfl, h0⟩) hw
  · obtain ⟨view, hv⟩ := Option.isSome_iff_exists.mp hview
    rw [exec_of_viewOf hv] at h
    obtain ⟨-, rfl⟩ | ⟨h0, -⟩ := readContext_next h
    · rfl
    · exact absurd ⟨h0, .inl (mem_contextReadRows_of_viewOf i hi hview)⟩ hu
  · rw [exec_rdDoutRow] at h
    obtain ⟨-, rfl⟩ | ⟨h0, -⟩ := readDout_next h
    · rfl
    · exact absurd (.inr (.inl ⟨k, rfl, h0⟩)) hw

/-- An instruction that answers and performs no command is a read, or a load, which records nothing. -/
theorem mem_readRows_or_faults {i : Instr} {s t : State} (hc : commandOf i = none) (h : exec i s = .next t) :
    i ∈ readRows ∨ t.faults = s.faults := by
  cases i with
  | wrCmd v =>
    obtain ⟨c, hd, -⟩ := execWrCmd_next h
    simp [commandOf, hd, Except.toOption] at hc
  | wrData | wrDout0 | wrDout1 | wrDout2 | wrDout3 | wrDout4 =>
    cases h
    exact .inr rfl
  | reset | absorb0 | absorb1 | absorb2 | absorb3 | absorb4 | finalize => cases hc
  | _ => exact .inl (by decide)

theorem exec_faults_of_unlisted {i : Instr} {s t : State} (hu : ¬ UninitAccess i s) (hw : ¬ UnwrittenAccess i s)
    (h : exec i s = .next t) : t.faults = s.faults := by
  cases hc : commandOf i with
  | none => exact (mem_readRows_or_faults hc h).elim (fun hi => exec_readRow_faults hi hu hw h) id
  | some c =>
    refine performCmd_faults ?_ ?_ (exec_of_commandOf hc s ▸ h)
    · by_contra! hne
      exact hu ⟨by simpa using hne.2, .inr (by simpa [hc] using hne.1)⟩
    · by_contra! hb
      exact hw (.inr (.inr ⟨hb.2.1, hb.2.2, by simpa [hc] using hb.1⟩))

/-- Settles O55: one lemma for each part of the table, and one for what it does not list. -/
theorem faultTableIsExact : Obligations.FaultTableIsExact :=
  fun _ _ _ h => ⟨fun ha => exec_of_uninitAccess ha h, fun ha => exec_of_unwrittenAccess ha h,
    fun hu hw => exec_faults_of_unlisted hu hw h⟩

end Sys2Proof.Machine

namespace Sys2Proof.Machine

/-! ### The records of faults and refusals (60_exceptions.md R172, R173) -/

theorem step_records_or_keeps {s t : State} (h : step s = .next t) :
    t.faults = s.faults ∨ ∃ f, t = { s with pending := s.pending.tail, faults := s.faults ++ [f] } := by
  obtain ⟨-, ⟨-, rfl⟩ | ⟨rest, -, rfl⟩ | ⟨a, rest, i, hp, -, he⟩⟩ := step_next h
  · exact .inl rfl
  · exact .inl rfl
  · obtain ⟨r, rfl⟩ | hf := exec_faults he
    · exact .inr ⟨r, by rw [hp]; rfl⟩
    · exact .inl hf

theorem step_faults_prefix {s t : State} (h : step s = .next t) : s.faults <+: t.faults := by
  obtain hf | ⟨f, rfl⟩ := step_records_or_keeps h
  · exact hf ▸ List.prefix_rfl
  · exact List.prefix_append _ _

/-- One event of a recorded run: the step answered and no refusal is added, or it was refused, which is added, and the event is
dropped. -/
theorem RunRecord.step_cases (r : RunRecord) :
    (∃ t, Machine.step r.state = .next t ∧ r.step = { r with state := t }) ∨
    ∃ f, r.step = { r with state := r.state.dropEvent, refusals := r.refusals ++ [f] } := by
  unfold RunRecord.step
  cases Machine.step r.state with
  | next t => exact .inl ⟨t, rfl, rfl⟩
  | fault f => cases f
  | refused f => exact .inr ⟨f, rfl⟩

theorem RunRecord.step_prefix (r : RunRecord) :
    r.state.faults <+: r.step.state.faults ∧ r.refusals <+: r.step.refusals := by
  obtain ⟨t, ht, e⟩ | ⟨f, e⟩ := r.step_cases
  · rw [e]
    exact ⟨step_faults_prefix ht, List.prefix_rfl⟩
  · rw [e]
    exact ⟨List.prefix_rfl, List.prefix_append _ _⟩

theorem RunRecord.iterate_step_prefix (r : RunRecord) (n : Nat) :
    r.state.faults <+: (RunRecord.step^[n] r).state.faults ∧ r.refusals <+: (RunRecord.step^[n] r).refusals := by
  induction n with
  | zero => exact ⟨List.prefix_rfl, List.prefix_rfl⟩
  | succ n ih =>
    rw [Function.iterate_succ_apply']
    obtain ⟨hf, hr⟩ := (RunRecord.step^[n] r).step_prefix
    exact ⟨ih.1.trans hf, ih.2.trans hr⟩

theorem RunRecord.step_state_of_refused {r : RunRecord} (h : r.step.refusals ≠ r.refusals) :
    r.step.state = r.state.dropEvent := by
  obtain ⟨t, -, e⟩ | ⟨f, e⟩ := r.step_cases
  · exact absurd (by rw [e]) h
  · rw [e]

/-- Settles O40: a step appends at most one fault or one refusal, and by induction so does every run. -/
theorem recordedFaultsAreNeverCleared : Obligations.RecordedFaultsAreNeverCleared :=
  ⟨fun _ _ => step_records_or_keeps, fun r n =>
    ⟨(r.iterate_step_prefix n).1, (r.iterate_step_prefix n).2, RunRecord.step_state_of_refused⟩⟩

/-! ### The instance an access reaches (60_exceptions.md R182) -/

/-- An access that a system answers passed by, since it reaches no instance, or was served by the instance it reaches. -/
theorem System.access_cases {sys sys' : System} {j : Nat} {ag : Agent} {a : HostAccess}
    (h : sys.access j ag a = .next sys') :
    (sys' = sys.passedBy j ag ∧
      ∀ k e base, sys.route a.addr = some k → sys.engines[k]? = some e → sys.bases[k]? ≠ some base) ∨
    ∃ k e base e', sys.route a.addr = some k ∧ sys.engines[k]? = some e ∧ sys.bases[k]? = some base ∧
      serve (a.atBase base) e = .next e' ∧ sys' = sys.answered j k ag e e' := by
  unfold System.access at h
  split at h
  case h_1 hr =>
    cases h
    exact .inl ⟨rfl, by simp [hr]⟩
  case h_2 k hr =>
    split at h
    case h_1 e base he hb =>
      cases hs : serve (a.atBase base) e with
      | next e' =>
        rw [hs] at h
        cases h
        exact .inr ⟨k, e, base, e', hr, he, hb, hs, rfl⟩
      | fault f => cases f
      | refused r => rw [hs] at h; cases h
    case h_2 hnone =>
      cases h
      refine .inl ⟨rfl, fun l e base hl he hb => ?_⟩
      obtain rfl : k = l := Option.some.inj (hr.symm.trans hl)
      exact hnone e base he hb

/-- Settles O49: passing by changes the agent alone, and answering only the agent and the instance that served. -/
theorem accessTouchesOneInstance : Obligations.AccessTouchesOneInstance := by
  intro sys sys' j ag a rest hag hp h
  rw [System.step_eq_access hag hp] at h
  obtain ⟨rfl, hnone⟩ | ⟨k, e, base, e', hr, he, hb, hs, rfl⟩ := System.access_cases h
  · exact ⟨rfl, rfl, fun i hi => List.getElem?_set_ne hi.symm, fun _ _ => rfl,
      fun k e base hr he hb => absurd hb (hnone k e base hr he)⟩
  · refine ⟨rfl, rfl, fun i hi => List.getElem?_set_ne hi.symm, fun l hl => ?_, fun l f b hl hf hb' => ?_⟩
    · exact List.getElem?_set_ne fun hkl : k = l => hl (hkl ▸ hr)
    · obtain rfl : k = l := Option.some.inj (hr.symm.trans hl)
      obtain rfl : e = f := Option.some.inj (he.symm.trans hf)
      obtain rfl : base = b := Option.some.inj (hb.symm.trans hb')
      exact ⟨e', hs, List.getElem?_set_self (List.getElem?_eq_some_iff.mp he).1⟩

end Sys2Proof.Machine

namespace Sys2Proof.Machine

/-! ### R193's host (70_reset_and_hazards.md section 2) -/

theorem oneHash_of_next {s t : State} {m : List Byte} (h : serveAll (hashToStatus m) s = .next t) :
    oneHash m s = serveAll (readsAfterStatus t.lastRead) t := by
  rw [oneHash, h]

theorem State.lastRead_of_returned {t : State} {vs : List Word} {v : Word} (h : t.returned = vs ++ [v]) :
    t.lastRead = v := by
  rw [State.lastRead, h, List.getLastD_concat]

theorem readsAfterStatus_of_corrupted {v : Word} (h : v.getLsbD 1 = true) : readsAfterStatus v = [] :=
  if_pos h

/-- Settles O52: up to STATUS the host does what the pseudo-instructions do, and at STATUS 1 it reads DOUT. -/
theorem oneHashReturnsDigest : Obligations.OneHashReturnsDigest := by
  intro s m hc hmax hl
  obtain ⟨t, hserve, ht⟩ := serveAll_hashToStatus hc hmax hl
  have hreads : oneHash m s = .next { t with returned := t.returned ++ t.dout.toList } := by
    rw [oneHash_of_next hserve, State.lastRead_of_returned ht.returned_eq]
    exact serveAll_doutReads (by rwa [ht.cfg_eq]) ht.writtenDout_eq
  refine ⟨_, hreads, ?_, ht.dout_eq, ht.pending_eq, ht.faults_eq⟩
  show t.returned ++ t.dout.toList = _
  rw [ht.returned_eq, ht.dout_eq, List.append_assoc]
  rfl

/-! ### A message whose count reaches 2^64 (R134, R196) -/

/-- The accesses a host makes keep the invariant of the context. -/
theorem State.Inv.serveAll {as : List Access} {s t : State} (h : s.Inv) (hs : serveAll as s = .next t) : t.Inv := by
  induction as generalizing s with
  | nil => cases hs; exact h
  | cons a as ih =>
    cases hu : serve a s with
    | next u =>
      obtain ⟨i, -, he⟩ := serve_next h.1 hu
      exact ih (h.exec he) ((serveAll_cons_of_next hu).symm.trans hs)
    | fault f => cases f
    | refused r => rw [Machine.serveAll, hu] at hs; cases hs

/-- What ABSORBs leave of the state `s` once one of them has wrapped the count: CORRUPTED is set, and they wrote only DATA and
the registers of the context that take the message. -/
def State.WrappedTo (s t : State) : Prop :=
  t = { s with block := t.block, fill := t.fill, h := t.h, lenLo := t.lenLo, lenHi := t.lenHi, corrupted := true,
               data := t.data, writtenData := t.writtenData }

theorem State.WrappedTo.corrupted {s t : State} (h : s.WrappedTo t) : t.corrupted = true := by rw [h]

theorem State.WrappedTo.cfg {s t : State} (h : s.WrappedTo t) : t.cfg = s.cfg := by rw [h]

theorem State.WrappedTo.init {s t : State} (h : s.WrappedTo t) : t.init = s.init := by rw [h]

theorem State.WrappedTo.computed {s t : State} (h : s.WrappedTo t) : t.computed = s.computed := by rw [h]

theorem State.WrappedTo.withData {s t : State} (h : s.WrappedTo t) (d : Word) (w : Bool) :
    s.WrappedTo { t with data := d, writtenData := w } := by
  rw [h]
  rfl

/-- The bytes absorbed before the wrap, and what DATA then holds, are part of what it leaves. -/
theorem State.WrappedTo.of_absorbString {s t : State} {m : List Byte} {v : Word}
    (h : ((s.absorbString m).loadData v).WrappedTo t) : s.WrappedTo t := by
  obtain ⟨b, f, d, lo, hi, e⟩ := s.absorbString_frame m
  rw [e] at h
  exact h

/-- An ABSORB of any count on a corrupted context does nothing (R132 (a), (b)). -/
theorem absorb_of_corrupted {nb : Nat} {s : State} (hi : s.init = true) (hk : s.corrupted = true)
    (hmax : nb ≤ s.cfg.dataBytesMax) : absorb nb s = .next s := by
  by_cases h0 : nb = 0
  · subst h0
    exact exec_absorb0_of_init hi
  · rw [absorb_of_finished hi (.inr hk) h0 hmax, State.corrupt_of_corrupted hk]

/-- One chunk: DATA is loaded, and the ABSORB of that many bytes does the rest. -/
theorem serveAll_absorbChunk_of_absorb {s t : State} {c : List Byte} (hc : paramsOk s.cfg = true) (h4 : c.length ≤ 4)
    (h : absorb c.length (s.loadData (packBytes c)) = .next t) : serveAll (absorbChunk c) s = .next t := by
  have hwrite : serve (Instr.wrData (packBytes c)).access s = .next (s.loadData (packBytes c)) := serve_access rfl hc
  have habsorb : serve (cmdAbsorb c.length) (s.loadData (packBytes c)) = .next t :=
    (serve_cmdAbsorb (s := s.loadData (packBytes c)) h4 hc).trans h
  exact (serveAll_cons_of_next hwrite).trans (serveAll_cons_of_next habsorb)

/-- A chunk sent to a corrupted context is loaded into DATA and no further. -/
theorem serveAll_absorbChunk_of_corrupted {s : State} {c : List Byte} (hc : paramsOk s.cfg = true)
    (hi : s.init = true) (hk : s.corrupted = true) (h4 : c.length ≤ 4) (hmax : c.length ≤ s.cfg.dataBytesMax) :
    serveAll (absorbChunk c) s = .next (s.loadData (packBytes c)) :=
  serveAll_absorbChunk_of_absorb hc h4 (absorb_of_corrupted hi hk hmax)

theorem serveAll_absorbChunks_of_corrupted {s : State} {chunks : List (List Byte)} (hc : paramsOk s.cfg = true)
    (hi : s.init = true) (hk : s.corrupted = true)
    (hchunks : ∀ c ∈ chunks, c.length ≤ 4 ∧ c.length ≤ s.cfg.dataBytesMax) :
    ∃ d w, serveAll (chunks.flatMap absorbChunk) s = .next { s with data := d, writtenData := w } := by
  induction chunks generalizing s with
  | nil => exact ⟨s.data, s.writtenData, rfl⟩
  | cons c cs ih =>
    obtain ⟨⟨h4, hmax⟩, hcs⟩ := List.forall_mem_cons.mp hchunks
    obtain ⟨d, w, e⟩ := ih (s := s.loadData (packBytes c)) hc hi hk hcs
    refine ⟨d, w, ?_⟩
    rw [List.flatMap_cons, serveAll_append_of_next (serveAll_absorbChunk_of_corrupted hc hi hk h4 hmax), e]
    rfl

/-- The chunk whose bytes bring the count to 2^64 corrupts the context. -/
theorem serveAll_absorbChunk_of_wraps {s : State} {c : List Byte} (hinv : s.Inv) (ho : s.Open) (h4 : c.length ≤ 4)
    (hmax : c.length ≤ s.cfg.dataBytesMax) (hl : 2 ^ 64 ≤ s.len + 8 * c.length) :
    ∃ t, serveAll (absorbChunk c) s = .next t ∧ s.WrappedTo t := by
  obtain ⟨hc, hf, -⟩ := hinv
  have hnb : c.length ∈ [1, 2, 3, 4] := by
    have := s.len_lt
    simp only [List.mem_cons, List.not_mem_nil, or_false]
    omega
  obtain ⟨t, ht, hframe, -, -⟩ :=
    absorbWrapCorruptsAndStops (s.loadData (packBytes c)) c.length hnb hmax ho rfl hf hl
  refine ⟨t, serveAll_absorbChunk_of_absorb hc h4 ((exec_absorbRow hnb _).symm.trans ht), ?_⟩
  rw [hframe]
  rfl

/-- A string that brings the count to 2^64: its chunks are absorbed up to the one that wraps, which corrupts the context, and
those after it do nothing. -/
theorem serveAll_absorbChunks_of_wraps {s : State} {chunks : List (List Byte)} (hinv : s.Inv) (ho : s.Open)
    (hchunks : ∀ c ∈ chunks, c.length ≤ 4 ∧ c.length ≤ s.cfg.dataBytesMax)
    (hl : 2 ^ 64 ≤ s.len + 8 * chunks.flatten.length) :
    ∃ t, serveAll (chunks.flatMap absorbChunk) s = .next t ∧ s.WrappedTo t := by
  induction chunks generalizing s with
  | nil =>
    have := s.len_lt
    simp only [List.flatten_nil, List.length_nil] at hl
    omega
  | cons c cs ih =>
    obtain ⟨⟨h4, hmax⟩, hcs⟩ := List.forall_mem_cons.mp hchunks
    rw [List.flatten_cons, List.length_append] at hl
    rw [List.flatMap_cons]
    by_cases hlc : s.len + 8 * c.length < 2 ^ 64
    · have hserve := serveAll_absorbChunk ⟨hinv.1, ho, hinv.2.1, hlc⟩ h4 hmax
      have hlen : ((s.absorbString c).loadData (packBytes c)).len = s.len + 8 * c.length :=
        State.absorbString_len hlc
      obtain ⟨t, ht, hframe⟩ := ih (hinv.serveAll hserve) (ho.absorbString c)
        (by rwa [State.loadData_cfg, State.absorbString_cfg]) (by omega)
      exact ⟨t, (serveAll_append_of_next hserve).trans ht, hframe.of_absorbString⟩
    · obtain ⟨u, hu, hframe⟩ := serveAll_absorbChunk_of_wraps hinv ho h4 hmax (Nat.not_lt.mp hlc)
      obtain ⟨d, w, e⟩ := serveAll_absorbChunks_of_corrupted (chunks := cs) (by rw [hframe.cfg]; exact hinv.1)
        (hframe.init.trans ho.1) hframe.corrupted (by rwa [hframe.cfg])
      exact ⟨_, (serveAll_append_of_next hu).trans e, hframe.withData d w⟩

theorem serveAll_absorbBuf_of_wraps {s : State} {m : List Byte} (hinv : s.Inv) (ho : s.Open)
    (hmax : 4 ≤ s.cfg.dataBytesMax) (hl : 2 ^ 64 ≤ s.len + 8 * m.length) :
    ∃ t, serveAll (absorbBuf m) s = .next t ∧ s.WrappedTo t := by
  cases m with
  | nil =>
    have := s.len_lt
    simp only [List.length_nil] at hl
    omega
  | cons b bs =>
    obtain ⟨chunks, hgroups, hflat, hlen⟩ := absorbGroups_eq_flatMap (b :: bs)
    rw [absorbBuf, hgroups]
    exact serveAll_absorbChunks_of_wraps hinv ho (fun c hc => ⟨hlen c hc, (hlen c hc).trans hmax⟩) (hflat ▸ hl)

/-- FINALIZE on a corrupted context does nothing, and STATUS is read after it. -/
theorem serveAll_finalizeStatus_of_corrupted {s : State} (hc : paramsOk s.cfg = true) (hi : s.init = true)
    (hk : s.corrupted = true) : serveAll finalizeStatus s = .next (s.answer (statusWord s)) := by
  have hfinalize : serve Instr.finalize.access s = .next s := by
    rw [serve_access rfl hc]
    exact execFinalize_of_corrupted hi hk
  have hstatus : serve Instr.rdStatus.access s = .next (s.answer (statusWord s)) := by
    rw [serve_access rfl hc, exec_view_of_init (view := statusWord) rfl hi]
  exact (serveAll_cons_of_next hfinalize).trans (serveAll_cons_of_next hstatus)

/-- RESET, the ABSORBs of a message that wraps the count, FINALIZE and `RD STATUS`, from any state. -/
theorem serveAll_hashToStatus_of_wraps {s : State} {m : List Byte} (hc : paramsOk s.cfg = true)
    (hmax : 4 ≤ s.cfg.dataBytesMax) (hl : 2 ^ 64 ≤ 8 * m.length) :
    ∃ t, serveAll (hashToStatus m) s = .next (t.answer (statusWord t)) ∧ s.createContext.WrappedTo t ∧
      t.fill < 64 := by
  have hreset : serveAll cmdReset s = .next s.createContext := serveAll_cons_of_next (serve_access rfl hc)
  have hinv : s.createContext.Inv := ⟨hc, by simp⟩
  obtain ⟨t, habsorb, hframe⟩ := serveAll_absorbBuf_of_wraps (m := m) hinv ⟨rfl, rfl, rfl⟩ hmax (by simpa using hl)
  obtain ⟨hct, hfill, -⟩ := hinv.serveAll habsorb
  refine ⟨t, ?_, hframe, hfill⟩
  rw [hashToStatus, List.append_assoc, serveAll_append_of_next hreset, serveAll_append_of_next habsorb]
  exact serveAll_finalizeStatus_of_corrupted hct hframe.init hframe.corrupted

/-- Settles O53: the ABSORB that wraps the count corrupts the context, so STATUS shows that and the host reads no more. -/
theorem oneHashOfTooLongMessageReadsNoDigest : Obligations.OneHashOfTooLongMessageReadsNoDigest := by
  intro s m hc hmax hl
  obtain ⟨t, hserve, hframe, hfill⟩ := serveAll_hashToStatus_of_wraps hc hmax hl
  obtain ⟨hbit0, hbit1, -⟩ := statusWord_fields hfill
  rw [hframe.computed] at hbit0
  rw [hframe.corrupted] at hbit1
  have hlast : (t.answer (statusWord t)).lastRead = statusWord t := State.lastRead_of_returned rfl
  have hhash : oneHash m s = .next (t.answer (statusWord t)) := by
    rw [oneHash_of_next hserve, hlast, readsAfterStatus_of_corrupted hbit1, serveAll]
  refine ⟨_, hhash, ⟨statusWord t, ?_, hbit1, hbit0⟩, ?_, ?_, hframe.corrupted, ?_⟩
  · rw [State.answer_returned, hframe]
    rfl
  all_goals rw [hframe]; rfl

end Sys2Proof.Machine

namespace Sys2Proof.Machine

/-! ### The reset line (70_reset_and_hazards.md R190) -/

/-- A read of DATA or of a word of DOUT while nothing has been written there. -/
theorem exec_registerRead_of_unwritten {s : State} (hd : s.writtenData = false)
    (hw : s.writtenDout = Vector.replicate 5 false) :
    ∀ i ∈ [Instr.rdData, .rdDout0, .rdDout1, .rdDout2, .rdDout3, .rdDout4],
      exec i s = .next (s.recordFault .unwrittenRegister) := by
  intro i hi
  have hcases : ∀ i ∈ [Instr.rdData, .rdDout0, .rdDout1, .rdDout2, .rdDout3, .rdDout4],
      i = .rdData ∨ ∃ k : Fin 5, i = rdDoutRow k := by decide
  obtain rfl | ⟨k, rfl⟩ := hcases i hi
  · exact readData_of_unwritten hd
  · rw [exec_rdDoutRow]
    exact readDout_of_unwritten (by simp [hw])

/-- Settles O38: in the power-on state no mark is set, so each guarded access finds its mark 0. -/
theorem resetLineGivesPowerOn : Obligations.ResetLineGivesPowerOn := by
  intro s rest hc hp
  obtain ⟨-, -, -, huninit⟩ := contextFaultsUntilFirstReset
  obtain ⟨hcontext, habsorb⟩ := huninit (s.popEvent rest).powerOn rfl
  exact ⟨_, step_resetLine hc hp, rfl, rfl, rfl, rfl, hcontext, habsorb, exec_registerRead_of_unwritten rfl rfl⟩

theorem System.resetLine_of_params {sys : System} {k : Nat} {e : State} (he : sys.engines[k]? = some e)
    (hc : paramsOk e.cfg = true) :
    sys.resetLine k = .next { sys with engines := sys.engines.set k e.powerOn } := by
  rw [System.resetLine, he]
  simp only [step_pushEvent_resetLine hc]

/-- Settles O54: the line is one step of its instance, and only that instance is replaced. -/
theorem resetLineTouchesOneInstance : Obligations.ResetLineTouchesOneInstance :=
  fun _ _ _ he hc => System.resetLine_of_params he hc

end Sys2Proof.Machine
